-- ==== Sys2Proof/Word.lean ====
section
/-!
DEFINITION. The machine's word types and their plainest arithmetic (00_scope.md R8, R9).
Every value is unsigned. `Byte` is a memory cell or V register, `Word` an instruction word, PC, I or
stack slot.
-/

namespace Sys2Proof

/-- A memory cell, a V register, a timer (00_scope.md R6, `BYTE_W`). -/
abbrev Byte := BitVec 8

/-- An instruction word, PC, I, a stack slot (00_scope.md R6, `OPCODE_W`, `PC_W`, `I_W`). -/
abbrev Word := BitVec 16

/-- The 12-bit address field NNN (30_encoding.md R71). -/
abbrev Addr12 := BitVec 12

/-- The index of a general register, 0x0 to 0xF (10_state.md R21). -/
abbrev Reg := Fin 16

end Sys2Proof
end

