-- ==== Sys2Proof/Syntax.lean ====
section
/-!
DEFINITION. The instructions: one constructor per row of spec/opcode_table.json, in its order
(30_encoding.md R75). Operands are the decoded fields of R71; every value of every field is legal (R77).
-/

namespace Sys2Proof

/-- The 34 instructions of 30_encoding.md R75, named after the mnemonics of R79. `x` and `y` are the
register fields X and Y, `n` the row count N, `nn` the byte NN, `nnn` the address NNN. -/
inductive Instr where
  /-- 00E0, 44_display.md R140. -/
  | cls
  /-- 00EE, 41_flow.md R100. -/
  | ret
  /-- 1NNN, 41_flow.md R101. -/
  | jp (nnn : Addr12)
  /-- 2NNN, 41_flow.md R102. -/
  | call (nnn : Addr12)
  /-- 3XNN, 41_flow.md R105. -/
  | seImm (x : Reg) (nn : Byte)
  /-- 4XNN, 41_flow.md R106. -/
  | sneImm (x : Reg) (nn : Byte)
  /-- 5XY0, 41_flow.md R107. -/
  | seReg (x y : Reg)
  /-- 6XNN, 42_alu.md R110. -/
  | ldImm (x : Reg) (nn : Byte)
  /-- 7XNN, 42_alu.md R111. -/
  | addImm (x : Reg) (nn : Byte)
  /-- 8XY0, 42_alu.md R112. -/
  | ldReg (x y : Reg)
  /-- 8XY1, 42_alu.md R113. -/
  | orReg (x y : Reg)
  /-- 8XY2, 42_alu.md R114. -/
  | andReg (x y : Reg)
  /-- 8XY3, 42_alu.md R115. -/
  | xorReg (x y : Reg)
  /-- 8XY4, 42_alu.md R116. -/
  | addReg (x y : Reg)
  /-- 8XY5, 42_alu.md R117. -/
  | sub (x y : Reg)
  /-- 8XY6, 42_alu.md R118. -/
  | shr (x y : Reg)
  /-- 8XY7, 42_alu.md R119. -/
  | subn (x y : Reg)
  /-- 8XYE, 42_alu.md R120. -/
  | shl (x y : Reg)
  /-- 9XY0, 41_flow.md R108. -/
  | sneReg (x y : Reg)
  /-- ANNN, 43_index_memory.md R130. -/
  | ldI (nnn : Addr12)
  /-- BNNN, 41_flow.md R103. -/
  | jpV0 (nnn : Addr12)
  /-- CXNN, 42_alu.md R121. -/
  | rnd (x : Reg) (nn : Byte)
  /-- DXYN, 44_display.md R141. -/
  | drw (x y : Reg) (n : Fin 16)
  /-- EX9E, 45_keypad_timer.md R150. -/
  | skp (x : Reg)
  /-- EXA1, 45_keypad_timer.md R151. -/
  | sknp (x : Reg)
  /-- FX07, 45_keypad_timer.md R153. -/
  | ldVxDt (x : Reg)
  /-- FX0A, 45_keypad_timer.md R152. -/
  | ldVxK (x : Reg)
  /-- FX15, 45_keypad_timer.md R154. -/
  | ldDtVx (x : Reg)
  /-- FX18, 45_keypad_timer.md R155. -/
  | ldStVx (x : Reg)
  /-- FX1E, 43_index_memory.md R131. -/
  | addI (x : Reg)
  /-- FX29, 43_index_memory.md R132. -/
  | ldF (x : Reg)
  /-- FX33, 43_index_memory.md R133. -/
  | ldB (x : Reg)
  /-- FX55, 43_index_memory.md R134. -/
  | stRegs (x : Reg)
  /-- FX65, 43_index_memory.md R135. -/
  | ldRegs (x : Reg)
  deriving DecidableEq, Repr

end Sys2Proof
end

