-- ==== Sys2Proof/WellFormed.lean ====
section
/-!
DEFINITION. Which 16-bit words are instructions at all, as 30_encoding.md R76 lists it, one check per
group of families that has invalid words. An `Instr` itself has no ill-formed value: its fields have
exactly the widths of R71 and R77 makes every value of them legal, so the check is on the word. It is
written on the word as a number, apart from the decoder, so that the two can be compared.
-/

namespace Sys2Proof

/-- Family 0 holds exactly 0x00E0 and 0x00EE, matched on all 16 bits (30_encoding.md R74, R76, D9). -/
def wellFormed0 (op : Word) : Bool := op.toNat == 0x00E0 || op.toNat == 0x00EE

/-- Families 5 and 9 need a low nibble of 0 (30_encoding.md R76). -/
def wellFormed59 (op : Word) : Bool := op.toNat % 0x10 == 0

/-- Family 8 has no word with a low nibble in 8, 9, A, B, C, D, F (30_encoding.md R76). -/
def wellFormed8 (op : Word) : Bool :=
  !([0x8, 0x9, 0xA, 0xB, 0xC, 0xD, 0xF].contains (op.toNat % 0x10))

/-- Family E needs a low byte of 9E or A1 (30_encoding.md R76). -/
def wellFormedE (op : Word) : Bool := [0x9E, 0xA1].contains (op.toNat % 0x100)

/-- Family F needs one of nine low bytes (30_encoding.md R76). -/
def wellFormedF (op : Word) : Bool :=
  [0x07, 0x0A, 0x15, 0x18, 0x1E, 0x29, 0x33, 0x55, 0x65].contains (op.toNat % 0x100)

/-- The word is none of the invalid words of 30_encoding.md R76; the other families have none. -/
def wellFormed (op : Word) : Bool :=
  let top := op.toNat / 0x1000
  if top = 0x0 then wellFormed0 op
  else if top = 0x5 then wellFormed59 op
  else if top = 0x8 then wellFormed8 op
  else if top = 0x9 then wellFormed59 op
  else if top = 0xE then wellFormedE op
  else if top = 0xF then wellFormedF op
  else true

end Sys2Proof
end

