-- ==== Sys2Proof/Decode.lean ====
section
/-!
DEFINITION. The decoder and the encoder (30_encoding.md R70 to R82, 40_cycle_fetch_decode.md R92).
Decoding is total on words and on byte strings and rejects by name; it looks at nothing but the word
(R78). The encoder is written from the same table of patterns, R75.
-/

namespace Sys2Proof

/-- Why bits are no instruction. -/
inductive DecodeError where
  /-- The word matches no row of 30_encoding.md R75 (R76). -/
  | invalidInstruction (op : Word)
  /-- Fewer than the two bytes of an instruction (30_encoding.md R70). -/
  | truncated (bytes : Nat)
  deriving DecidableEq, Repr

/-- The big-endian composition of two bytes, `(hi << 8) OR lo` (20_memory.md R53, R54). -/
def beWord (hi lo : Byte) : Word := hi.setWidth 16 <<< 8 ||| lo.setWidth 16

/-- The byte of a word that lies at the lower address (20_memory.md R54). -/
def hiByte (w : Word) : Byte := w.extractLsb' 8 8

/-- The byte of a word that lies at the higher address (20_memory.md R54). -/
def loByte (w : Word) : Byte := w.extractLsb' 0 8

/-- The top nibble `op[15:12]`, which selects the family (30_encoding.md R71, R74). -/
def family (op : Word) : BitVec 4 := op.extractLsb' 12 4

/-- The low nibble `op[3:0]`, a fixed sub-opcode (30_encoding.md R71). -/
def lowNibble (op : Word) : BitVec 4 := op.extractLsb' 0 4

/-- The low byte `op[7:0]`, a fixed sub-opcode (30_encoding.md R71). -/
def lowByte (op : Word) : Byte := op.extractLsb' 0 8

/-- X, `op[11:8]` (30_encoding.md R71). -/
def fieldX (op : Word) : Reg := (op.extractLsb' 8 4).toFin

/-- Y, `op[7:4]` (30_encoding.md R71). -/
def fieldY (op : Word) : Reg := (op.extractLsb' 4 4).toFin

/-- N, `op[3:0]`, as the row count of DXYN (30_encoding.md R71). -/
def fieldN (op : Word) : Fin 16 := (op.extractLsb' 0 4).toFin

/-- NN, `op[7:0]` (30_encoding.md R71). -/
def fieldNN (op : Word) : Byte := op.extractLsb' 0 8

/-- NNN, `op[11:0]` (30_encoding.md R71). -/
def fieldNNN (op : Word) : Addr12 := op.extractLsb' 0 12

/-- Family 0: the whole word must match (30_encoding.md R74, D9). -/
def decode0 (op : Word) : Except DecodeError Instr :=
  if op = 0x00E0#16 then .ok .cls
  else if op = 0x00EE#16 then .ok .ret
  else .error (.invalidInstruction op)

/-- Family 5: 5XY0 only (30_encoding.md R75 row 7). -/
def decode5 (op : Word) : Except DecodeError Instr :=
  if lowNibble op = 0x0#4 then .ok (.seReg (fieldX op) (fieldY op))
  else .error (.invalidInstruction op)

/-- Family 8 sub-dispatches on the low nibble (30_encoding.md R75 rows 10 to 18). -/
def decode8 (op : Word) : Except DecodeError Instr :=
  if lowNibble op = 0x0#4 then .ok (.ldReg (fieldX op) (fieldY op))
  else if lowNibble op = 0x1#4 then .ok (.orReg (fieldX op) (fieldY op))
  else if lowNibble op = 0x2#4 then .ok (.andReg (fieldX op) (fieldY op))
  else if lowNibble op = 0x3#4 then .ok (.xorReg (fieldX op) (fieldY op))
  else if lowNibble op = 0x4#4 then .ok (.addReg (fieldX op) (fieldY op))
  else if lowNibble op = 0x5#4 then .ok (.sub (fieldX op) (fieldY op))
  else if lowNibble op = 0x6#4 then .ok (.shr (fieldX op) (fieldY op))
  else if lowNibble op = 0x7#4 then .ok (.subn (fieldX op) (fieldY op))
  else if lowNibble op = 0xE#4 then .ok (.shl (fieldX op) (fieldY op))
  else .error (.invalidInstruction op)

/-- Family 9: 9XY0 only (30_encoding.md R75 row 19). -/
def decode9 (op : Word) : Except DecodeError Instr :=
  if lowNibble op = 0x0#4 then .ok (.sneReg (fieldX op) (fieldY op))
  else .error (.invalidInstruction op)

/-- Family E sub-dispatches on the low byte (30_encoding.md R75 rows 24, 25). -/
def decodeE (op : Word) : Except DecodeError Instr :=
  if lowByte op = 0x9E#8 then .ok (.skp (fieldX op))
  else if lowByte op = 0xA1#8 then .ok (.sknp (fieldX op))
  else .error (.invalidInstruction op)

/-- Family F sub-dispatches on the low byte (30_encoding.md R75 rows 26 to 34). -/
def decodeF (op : Word) : Except DecodeError Instr :=
  if lowByte op = 0x07#8 then .ok (.ldVxDt (fieldX op))
  else if lowByte op = 0x0A#8 then .ok (.ldVxK (fieldX op))
  else if lowByte op = 0x15#8 then .ok (.ldDtVx (fieldX op))
  else if lowByte op = 0x18#8 then .ok (.ldStVx (fieldX op))
  else if lowByte op = 0x1E#8 then .ok (.addI (fieldX op))
  else if lowByte op = 0x29#8 then .ok (.ldF (fieldX op))
  else if lowByte op = 0x33#8 then .ok (.ldB (fieldX op))
  else if lowByte op = 0x55#8 then .ok (.stRegs (fieldX op))
  else if lowByte op = 0x65#8 then .ok (.ldRegs (fieldX op))
  else .error (.invalidInstruction op)

/-- The dispatch of 40_cycle_fetch_decode.md R92 on the top nibble: the one instruction the word is,
or the verdict *invalid* of 30_encoding.md R76. -/
def decode (op : Word) : Except DecodeError Instr :=
  if family op = 0x0#4 then decode0 op
  else if family op = 0x1#4 then .ok (.jp (fieldNNN op))
  else if family op = 0x2#4 then .ok (.call (fieldNNN op))
  else if family op = 0x3#4 then .ok (.seImm (fieldX op) (fieldNN op))
  else if family op = 0x4#4 then .ok (.sneImm (fieldX op) (fieldNN op))
  else if family op = 0x5#4 then decode5 op
  else if family op = 0x6#4 then .ok (.ldImm (fieldX op) (fieldNN op))
  else if family op = 0x7#4 then .ok (.addImm (fieldX op) (fieldNN op))
  else if family op = 0x8#4 then decode8 op
  else if family op = 0x9#4 then decode9 op
  else if family op = 0xA#4 then .ok (.ldI (fieldNNN op))
  else if family op = 0xB#4 then .ok (.jpV0 (fieldNNN op))
  else if family op = 0xC#4 then .ok (.rnd (fieldX op) (fieldNN op))
  else if family op = 0xD#4 then .ok (.drw (fieldX op) (fieldY op) (fieldN op))
  else if family op = 0xE#4 then decodeE op
  else decodeF op

/-- Decode the instruction at the head of a byte string, and what follows it. Every instruction is two
bytes, the most significant one first (30_encoding.md R70, 20_memory.md R54). -/
def decodeBytes : List Byte → Except DecodeError (Instr × List Byte)
  | hi :: lo :: rest =>
    match decode (beWord hi lo) with
    | .ok i => .ok (i, rest)
    | .error e => .error e
  | short => .error (.truncated short.length)

/-- A word of format `NNN`: top nibble, then NNN (30_encoding.md R72). -/
def formNNN (t : Nat) (nnn : Addr12) : Word := BitVec.ofNat 16 (t * 0x1000 + nnn.toNat)

/-- A word of format `XNN` or `X`: top nibble, X, then a low byte (30_encoding.md R72). -/
def formXNN (t : Nat) (x : Reg) (nn : Byte) : Word :=
  BitVec.ofNat 16 (t * 0x1000 + x.val * 0x100 + nn.toNat)

/-- A word of format `XY` or `XYN`: top nibble, X, Y, then a low nibble (30_encoding.md R72). -/
def formXYN (t : Nat) (x y n : Fin 16) : Word :=
  BitVec.ofNat 16 (t * 0x1000 + x.val * 0x100 + y.val * 0x10 + n.val)

/-- The word of an instruction: its pattern of 30_encoding.md R75 with the fields filled in. -/
def encode : Instr → Word
  | .cls => 0x00E0#16
  | .ret => 0x00EE#16
  | .jp nnn => formNNN 0x1 nnn
  | .call nnn => formNNN 0x2 nnn
  | .seImm x nn => formXNN 0x3 x nn
  | .sneImm x nn => formXNN 0x4 x nn
  | .seReg x y => formXYN 0x5 x y 0x0
  | .ldImm x nn => formXNN 0x6 x nn
  | .addImm x nn => formXNN 0x7 x nn
  | .ldReg x y => formXYN 0x8 x y 0x0
  | .orReg x y => formXYN 0x8 x y 0x1
  | .andReg x y => formXYN 0x8 x y 0x2
  | .xorReg x y => formXYN 0x8 x y 0x3
  | .addReg x y => formXYN 0x8 x y 0x4
  | .sub x y => formXYN 0x8 x y 0x5
  | .shr x y => formXYN 0x8 x y 0x6
  | .subn x y => formXYN 0x8 x y 0x7
  | .shl x y => formXYN 0x8 x y 0xE
  | .sneReg x y => formXYN 0x9 x y 0x0
  | .ldI nnn => formNNN 0xA nnn
  | .jpV0 nnn => formNNN 0xB nnn
  | .rnd x nn => formXNN 0xC x nn
  | .drw x y n => formXYN 0xD x y n
  | .skp x => formXNN 0xE x 0x9E#8
  | .sknp x => formXNN 0xE x 0xA1#8
  | .ldVxDt x => formXNN 0xF x 0x07#8
  | .ldVxK x => formXNN 0xF x 0x0A#8
  | .ldDtVx x => formXNN 0xF x 0x15#8
  | .ldStVx x => formXNN 0xF x 0x18#8
  | .addI x => formXNN 0xF x 0x1E#8
  | .ldF x => formXNN 0xF x 0x29#8
  | .ldB x => formXNN 0xF x 0x33#8
  | .stRegs x => formXNN 0xF x 0x55#8
  | .ldRegs x => formXNN 0xF x 0x65#8

/-- The two bytes of an instruction in memory order (20_memory.md R54). -/
def encodeBytes (i : Instr) : List Byte := [hiByte (encode i), loByte (encode i)]

/-- The word that spec/opcode_table.json's bit numbering calls `w` with `nbits` bits: bit 0 is the
least significant bit of the word and the bits from `nbits` up are 0. -/
def tableWord (nbits w : Nat) : Word := BitVec.ofNat 16 (w % 2 ^ nbits)

/-- The instruction the decoder reads from the bytes of `tableWord nbits w`. -/
def decodeTableWord (nbits w : Nat) : Option Instr :=
  match decodeBytes [hiByte (tableWord nbits w), loByte (tableWord nbits w)] with
  | .ok (i, _) => some i
  | .error _ => none

end Sys2Proof
end

