-- ==== Sys2Proof/Config.lean ====
section
/-!
DEFINITION. The sizes of the hardware (00_scope.md R6) and its free values. Every size is a constant
of the source; the one free value is the stream of random bytes (00_scope.md R7, 92 D12).
-/

namespace Sys2Proof.Config

/-- `MEM_SIZE`: bytes of memory, addresses 0x000 to 0xFFF. -/
abbrev memSize : Nat := 4096

/-- `PROGRAM_BASE`: reset value of PC and load address of the program image. -/
abbrev programBase : Nat := 0x200

/-- `FONT_BASE`: address of the font table. -/
abbrev fontBase : Nat := 0x000

/-- `FONT_GLYPH_BYTES`: bytes per glyph. -/
abbrev fontGlyphBytes : Nat := 5

/-- `FONT_BYTES`: size of the font table. -/
abbrev fontBytes : Nat := 80

/-- `MAX_PROGRAM_BYTES`: `4096 − 0x200`. -/
abbrev maxProgramBytes : Nat := 3584

/-- `RND`: the byte RandomByte returns at its n-th draw (60_exceptions.md R183, 92 D12). It has no
body: nothing is known of any draw, so what is proved holds for every stream (log 8). -/
opaque rnd : Nat → Byte

end Sys2Proof.Config
end

