-- ==== Sys2Proof/Machine/State.lean ====
section
/-!
DEFINITION. The complete state of the CORE (10_state.md R20) as plain data, with the reasons a step can
stop and the state after reset (10_state.md R36).
-/

namespace Sys2Proof.Machine

/-- The six error kinds of 60_exceptions.md R161 with the information recorded. The same type is the
`FAULT` record of 10_state.md R32 and the reason a machine that is stopped gives (log 6). -/
inductive Fault where
  /-- Code 1. Raised by `memRead` and `memWrite`, so by the fetch, DXYN, FX33, FX55, FX65 and, through
  `hostCall`, the host's memory accesses, at an address above 4095. Safe: the machine stops where the spec
  stops it. -/
  | addressOutOfRange (addr : Nat)
  /-- Code 2. Raised by the host accessors `regGet` and `regSet` only, through `hostCall`, at an index of 16
  or more. Safe. -/
  | registerIndexInvalid (index : Nat)
  /-- Code 3. Raised by 2NNN at SP = 16 and 00EE at SP = 0, with the value of SP. Safe: the convention is
  92 D1's (log 10), and the machine stops where it says. -/
  | stackPointerInvalid (sp : Nat)
  /-- Code 4. Raised by the host operations `gfxGet`, `gfxSet`, `gfxDraw` only, through `hostCall`, off the
  64×32 grid. Safe. -/
  | coordinateOutOfRange (x y : Nat)
  /-- Code 5. Raised by `keyPress`, `keyRelease`, `keyIsPressed` for the host, through `hostCall`, at a key
  of 16 or more, and caught inside EX9E and EXA1. Safe. -/
  | invalidKey (key : Nat)
  /-- Code 6. Raised by decode at a word of 30_encoding.md R76. Safe. -/
  | invalidInstruction (op : Word)
  deriving DecidableEq, Repr

/-- Why the model declines to go on. No instruction is refused. -/
inductive Refusal where
  /-- Raised by an arm of `exec` whose instruction has no meaning yet; no arm does. Safe. -/
  | notModelled (mnemonic : String)
  /-- Raised by `boot` when the program image is longer than 3584 bytes, which 70_reset_and_hazards.md
  R203 makes a premise of reset (93 row 12). Safe: reset then gives no state. -/
  | romTooLong (bytes : Nat)
  /-- Raised by `boot` when the font is not 80 bytes that begin with the source's glyph 0
  (70_reset_and_hazards.md R202, 92 D18). Safe: reset then gives no state. -/
  | fontIllFormed (bytes : Nat)
  deriving DecidableEq, Repr

/-- The two countdown timers, delay and sound (10_state.md R26). -/
inductive Timer where
  | delay
  | sound
  deriving DecidableEq, Repr

/-- What the host may read through a checked operation at any time between cycles (60_exceptions.md R190):
a memory byte, a general register, a pixel, a key. The argument is what the host sends, in range or not
(R163). -/
inductive Query where
  | mem (addr : Nat)
  | reg (index : Nat)
  | pixel (x y : Nat)
  | key (key : Nat)
  deriving DecidableEq, Repr

/-- A step of an agent other than the CPU (60_exceptions.md R184), or a query of the host, which changes
nothing unless it faults (R190, log 6). A key number is what the host sends, in range or not (R189). -/
inductive Event where
  | tick (t : Timer)
  | keyPress (key : Nat)
  | keyRelease (key : Nat)
  | query (q : Query)
  deriving DecidableEq, Repr

/-- One element of an execution: a whole cycle, or one event (60_exceptions.md R184). -/
inductive Turn where
  | cycle
  | event (e : Event)
  deriving DecidableEq, Repr

/-- Memory, sparse: the cells that differ from the reset contents, by rising address (10_state.md R28). -/
abbrev Memory := List Host.Cell

/-- The 64×32 grid, row by row: pixel (x, y) is element x of row y (10_state.md R29). -/
abbrev FrameBuffer := Vector (Vector Bool 64) 32

/-- The state of 10_state.md R20, and two fields of the model's own at the end. -/
structure State where
  /-- V0 to VF; VF is also the flag (R21, R22). -/
  v : Vector Byte 16
  /-- The index register I (R23). -/
  i : Word
  /-- The program counter PC (R24). -/
  pc : Word
  /-- The stack pointer SP, 0 to 16: the number of active calls (R25). -/
  sp : Fin 17
  /-- STACK[1] to STACK[16]; slot k is element k − 1 (R25). -/
  stack : Vector Word 16
  /-- The word last fetched (R27). -/
  opcode : Word
  /-- The delay timer DT (R26). -/
  dt : Byte
  /-- The sound timer ST (R26). -/
  st : Byte
  /-- MEM (R28). -/
  mem : Memory
  /-- FB (R29). -/
  fb : FrameBuffer
  /-- KEY[0] to KEY[15], true while down (R30). -/
  key : Vector Bool 16
  /-- ANYKEY: set by every press, cleared by every release (R30). -/
  anyKey : Bool
  /-- LASTKEY, meaningful while ANYKEY is set (R30). -/
  lastKey : Fin 16
  /-- DRAWFLAG (R31). -/
  drawFlag : Bool
  /-- FAULT (R32). -/
  fault : Option Fault
  /-- The model's own: how many random bytes have been drawn (60_exceptions.md R183, log 8). -/
  draws : Nat
  /-- The model's own: the turns that come next, in order; when it is empty the CPU has every turn
  (60_exceptions.md R184, log 7). -/
  agenda : List Turn
  deriving DecidableEq, Repr

/-- What a step or a meaning answers. -/
abbrev Result := Host.Outcome State Fault Refusal

/-- The state after reset with no program loaded (10_state.md R36; log 1 to 5, 7, 8). -/
def State.reset : State where
  v := Vector.replicate 16 0#8
  i := 0#16
  pc := 0x200#16
  sp := 0
  stack := Vector.replicate 16 0#16
  opcode := 0#16
  dt := 0#8
  st := 0#8
  mem := []
  fb := Vector.replicate 32 (Vector.replicate 64 false)
  key := Vector.replicate 16 false
  anyKey := false
  lastKey := 0
  drawFlag := false
  fault := none
  draws := 0
  agenda := []

end Sys2Proof.Machine
end

