-- ==== Sys2Proof/Machine/Image.lean ====
section
/-!
DEFINITION. What memory holds before any write: the font table and the fill (70_reset_and_hazards.md
R202, R204).
-/

namespace Sys2Proof.Machine

/-- The glyph of "0", the one glyph the source prints (70_reset_and_hazards.md R202). -/
def fontGlyph0 : List Byte := [0xF0, 0x90, 0x90, 0x90, 0xF0]

/-- The default `FONT` of 70_reset_and_hazards.md R202. Glyph 0 is the source's; the other 75 bytes are
PRESUMED, the spec's table "from general knowledge" (92 D18, log 5). -/
def font : List Byte :=
  fontGlyph0 ++
  [0x20, 0x60, 0x20, 0x20, 0x70] ++
  [0xF0, 0x10, 0xF0, 0x80, 0xF0] ++
  [0xF0, 0x10, 0xF0, 0x10, 0xF0] ++
  [0x90, 0x90, 0xF0, 0x10, 0x10] ++
  [0xF0, 0x80, 0xF0, 0x10, 0xF0] ++
  [0xF0, 0x80, 0xF0, 0x90, 0xF0] ++
  [0xF0, 0x10, 0x20, 0x40, 0x40] ++
  [0xF0, 0x90, 0xF0, 0x90, 0xF0] ++
  [0xF0, 0x90, 0xF0, 0x10, 0xF0] ++
  [0xF0, 0x90, 0xF0, 0x90, 0x90] ++
  [0xE0, 0x90, 0xE0, 0x90, 0xE0] ++
  [0xF0, 0x80, 0x80, 0x80, 0xF0] ++
  [0xE0, 0x90, 0x90, 0x90, 0xE0] ++
  [0xF0, 0x80, 0xF0, 0x80, 0xF0] ++
  [0xF0, 0x80, 0xF0, 0x80, 0x80]

/-- `MEM_FILL`: every cell the loaders do not touch (70_reset_and_hazards.md R204, 92 D5, log 5). -/
def memFill : Byte := 0x00

/-- What a cell nothing has written reads as: the font at 0x000 to 0x04F, the fill elsewhere. -/
def resetByte (a : Nat) : Byte := font.getD a memFill

end Sys2Proof.Machine
end

