-- ==== Sys2Proof/Machine/Ops.lean ====
section
/-!
DEFINITION. The named operations: memory (20_memory.md R51 to R53), the general registers, the call
stack, raising a fault (00_scope.md R14, 60_exceptions.md R160, R164) and the fetch
(40_cycle_fetch_decode.md R91).
-/

namespace Sys2Proof.Machine

/-! ### Memory as a canonical list of cells -/

/-- The listed value of address `a`, if it is listed. -/
def Memory.lookup : Memory → Nat → Option Byte
  | [], _ => none
  | (b, w) :: m, a => if b = a then some w else Memory.lookup m a

/-- `MEM[a]`: an unlisted cell holds its reset contents. -/
def Memory.read (m : Memory) (a : Nat) : Byte := (Memory.lookup m a).getD (resetByte a)

/-- List `v` at `a`, keeping the addresses rising. -/
def Memory.put : Memory → Nat → Byte → Memory
  | [], a, v => [(a, v)]
  | (b, w) :: m, a, v =>
    if a < b then (a, v) :: (b, w) :: m
    else if a = b then (a, v) :: m
    else (b, w) :: Memory.put m a v

/-- Take address `a` off the list. -/
def Memory.erase (m : Memory) (a : Nat) : Memory := m.filter fun c => c.1 != a

/-- `MEM[a] <- v`: a value equal to the reset contents is not listed. -/
def Memory.write (m : Memory) (a : Nat) (v : Byte) : Memory :=
  if v = resetByte a then Memory.erase m a else Memory.put m a v

/-- The cells from address `lo` on are in rising order, inside the space, and none reads as it would
unlisted. -/
def Memory.wfFrom : Nat → Memory → Bool
  | _, [] => true
  | lo, (a, w) :: m =>
    decide (lo ≤ a) && decide (a < Config.memSize) && (w != resetByte a) && Memory.wfFrom (a + 1) m

/-- The canonical form: equal memories are equal lists. -/
def Memory.wf (m : Memory) : Bool := Memory.wfFrom 0 m

/-! ### Memory access -/

/-- `MemRead(addr, 1)`: the address is not reduced before the check (20_memory.md R51, R58). -/
def memRead (a : Nat) (s : State) : Except Fault Byte :=
  if a < Config.memSize then .ok (Memory.read s.mem a) else .error (.addressOutOfRange a)

/-- `MemWrite(addr, 1, v)` (20_memory.md R52). -/
def memWrite (a : Nat) (w : Byte) (s : State) : Except Fault State :=
  if a < Config.memSize then .ok { s with mem := Memory.write s.mem a w }
  else .error (.addressOutOfRange a)

/-- `MemRead(addr, 2)`: two byte reads in ascending order, composed big-endian (20_memory.md R53). -/
def memReadWord (a : Nat) (s : State) : Except Fault Word :=
  match memRead a s with
  | .error f => .error f
  | .ok hi =>
    match memRead (a + 1) s with
    | .error f => .error f
    | .ok lo => .ok (beWord hi lo)

/-! ### Raising a fault -/

/-- The first fault is kept: at most one is recorded per run (60_exceptions.md R166, log 6). -/
def recordFault (f : Fault) (s : State) : State :=
  { s with fault := match s.fault with
      | some g => some g
      | none => some f }

/-- `raise K(info)`, the machine's only exception entry: record the fault and stop the cycle with what
the statements before it did (00_scope.md R14, 60_exceptions.md R160, R164). Nothing is saved and
control goes nowhere, and there is no return from it (60_exceptions.md R165): the record makes
every later CPU turn stop (40_cycle_fetch_decode.md R96). -/
def raise (f : Fault) (s : State) : Result := .next (recordFault f s)

/-- Part of a cycle: it goes on with a value, or a statement in it raised, leaving the state so far. -/
inductive Flow (α : Type) where
  | go (a : α) (s : State)
  | stop (f : Fault) (s : State)

/-- End a cycle: the last statements `k` run only if nothing raised (60_exceptions.md R164). -/
def Flow.finish {α : Type} (r : Flow α) (k : α → State → State) : Result :=
  match r with
  | .go a s => .next (k a s)
  | .stop f s => raise f s

/-- Store bytes at ascending addresses from `a`, stopping at the first that raises
(20_memory.md R54, R56). -/
def storeBytes : Nat → List Byte → State → Flow Unit
  | _, [], s => .go () s
  | a, w :: ws, s =>
    match memWrite a w s with
    | .error f => .stop f s
    | .ok s' => storeBytes (a + 1) ws s'

/-! ### General registers and the call stack -/

/-- `V[x]` (10_state.md R21). -/
def getV (x : Reg) (s : State) : Byte := s.v[x]

/-- `V[x] <- b` (10_state.md R21). -/
def setV (x : Reg) (b : Byte) (s : State) : State := { s with v := s.v.set x b }

/-- Load the registers `xs` in order from ascending addresses from `a`, stopping at the first read that
raises (20_memory.md R54, R56). -/
def loadRegsFrom : Nat → List Reg → State → Flow Unit
  | _, [], s => .go () s
  | a, x :: xs, s =>
    match memRead a s with
    | .error f => .stop f s
    | .ok b => loadRegsFrom (a + 1) xs (setV x b s)

/-- SP := SP + 1, STACK[SP] := `w`, or the fault of a full stack before anything changes
(10_state.md R25, 41_flow.md R102). -/
def pushReturn (w : Word) (s : State) : Except Fault State :=
  if h : s.sp.val < 16 then
    .ok { s with sp := ⟨s.sp.val + 1, by omega⟩, stack := s.stack.set s.sp.val w }
  else .error (.stackPointerInvalid s.sp.val)

/-- The word at STACK[SP], then SP := SP − 1, or the fault of an empty stack before anything changes
(10_state.md R25, 41_flow.md R100). -/
def popReturn (s : State) : Except Fault (Word × State) :=
  if s.sp.val = 0 then .error (.stackPointerInvalid s.sp.val)
  else .ok (s.stack[s.sp.val - 1]'(by have := s.sp.isLt; omega), { s with sp := ⟨s.sp.val - 1, by omega⟩ })

/-! ### The program counter and the fetch -/

/-- `Skip()`: PC := PC + 2 (41_flow.md R104). -/
def skip (s : State) : State := { s with pc := s.pc + 2#16 }

/-- `if c then Skip()` (41_flow.md R104). -/
def skipIf (c : Bool) (s : State) : State := if c then skip s else s

/-- A cycle begins with DRAWFLAG := 0 (40_cycle_fetch_decode.md R90, R95). -/
def beginCycle (s : State) : State := { s with drawFlag := false }

/-- The word `fetch` reads: `MemRead(PC, 2)` (40_cycle_fetch_decode.md R91). -/
def fetchWord (s : State) : Except Fault Word := memReadWord s.pc.toNat s

/-- What `fetch` writes once it has the word: OPCODE, and PC + 2 (40_cycle_fetch_decode.md R91). -/
def afterFetch (w : Word) (s : State) : State := { s with opcode := w, pc := s.pc + 2#16 }

/-- The state in which an instruction executes that a cycle from `s` fetched as `w`
(40_cycle_fetch_decode.md R90, R93). -/
def fetched (w : Word) (s : State) : State := afterFetch w (beginCycle s)

end Sys2Proof.Machine
end

