-- ==== Sys2Proof/Machine/Flags.lean ====
section
/-!
DEFINITION. Every flag computation the spec gives. The one flag is the whole register VF, written as
0x00 or 0x01 (10_state.md R22).
-/

namespace Sys2Proof.Machine

/-- VF, register 0xF (10_state.md R22). -/
abbrev flagReg : Reg := 0xF

/-- The byte a flag writes to all of VF (10_state.md R22). -/
def flagByte (c : Bool) : Byte := if c then 0x01#8 else 0x00#8

/-- `VF <- c` (10_state.md R22). -/
def setFlag (c : Bool) (s : State) : State := setV flagReg (flagByte c) s

/-- 8XY4: the true sum exceeds 255 (42_alu.md R116). -/
def carry (a b : Byte) : Bool := decide (a.toNat + b.toNat > 255)

/-- 8XY5, 8XY7: minuend ≥ subtrahend, unsigned (42_alu.md R117, R119, R122). -/
def noBorrow (a b : Byte) : Bool := decide (a.toNat ≥ b.toNat)

/-- 8XY6: the bit shifted out at the bottom (42_alu.md R118). -/
def shiftedOutLow (a : Byte) : Bool := a.getLsbD 0

/-- 8XYE: the bit shifted out at the top (42_alu.md R120). -/
def shiftedOutHigh (a : Byte) : Bool := a.getLsbD 7

end Sys2Proof.Machine
end

