-- ==== Sys2Proof/Machine/Operands.lean ====
section
/-!
DEFINITION. Every operand form the spec gives: immediates widened with zeros (30_encoding.md R73), the
one data addressing mode I + k (43_index_memory.md R136), and the values FX29, FX33, FX55, FX65 and
DXYN make of their operands.
-/

namespace Sys2Proof.Machine

/-- NNN as an address for PC or I: `zext_16` (30_encoding.md R73). -/
def addrOf (nnn : Addr12) : Word := nnn.setWidth 16

/-- A register's value widened for PC or I: `zext_16` (30_encoding.md R73). -/
def wordOf (b : Byte) : Word := b.setWidth 16

/-- The base address in I, an unbounded natural (20_memory.md R58). -/
def baseAddr (s : State) : Nat := s.i.toNat

/-- The registers V0 to VX that FX55 and FX65 move, in order (30_encoding.md R73). -/
def regsUpTo (x : Reg) : List Reg := (List.finRange 16).take (x.val + 1)

/-- I advanced past the X + 1 bytes that FX55 or FX65 moved (43_index_memory.md R134, R135). -/
def advanceI (x : Reg) (s : State) : State := { s with i := s.i + BitVec.ofNat 16 (x.val + 1) }

/-- Hundreds, tens and ones of a byte, each a number in a byte (43_index_memory.md R133). -/
def decimalDigits (b : Byte) : List Byte :=
  [BitVec.ofNat 8 (b.toNat / 100), BitVec.ofNat 8 (b.toNat / 10 % 10), BitVec.ofNat 8 (b.toNat % 10)]

/-- The glyph address of the digit in the low nibble (43_index_memory.md R132). -/
def glyphAddr (b : Byte) : Word := BitVec.ofNat 16 (b.toNat % 16 * Config.fontGlyphBytes)

/-- A sprite pixel's column, wrapped (44_display.md R141). -/
def spriteCol (vx : Byte) (c : Nat) : Fin 64 := ⟨(vx.toNat % 64 + c) % 64, Nat.mod_lt _ (by decide)⟩

/-- A sprite pixel's row, wrapped (44_display.md R141). -/
def spriteRow (vy : Byte) (r : Nat) : Fin 32 := ⟨(vy.toNat % 32 + r) % 32, Nat.mod_lt _ (by decide)⟩

/-- Sprite column `c` of a row byte: bit 7 is the leftmost pixel (44_display.md R141 point 3, D8). -/
def spriteBit (b : Byte) (c : Nat) : Bool := b.getLsbD (7 - c)

end Sys2Proof.Machine
end

