-- ==== Sys2Proof/Machine/Devices.lean ====
section
/-!
DEFINITION. The devices' own operations: framebuffer, keypad, timers, register accessors and random
byte (60_exceptions.md R172 to R183), and the outputs of the host table (R190). An operation answers what it
raises; HostCalls.lean records it for a caller outside a cycle.
-/

namespace Sys2Proof.Machine

/-! ### Framebuffer -/

/-- A blank screen. -/
def blankScreen : FrameBuffer := Vector.replicate 32 (Vector.replicate 64 false)

/-- `GfxClear()` (60_exceptions.md R172). -/
def gfxClear (s : State) : State := { s with fb := blankScreen }

/-- `FB[x,y]` (10_state.md R29). -/
def pixel (fb : FrameBuffer) (x : Fin 64) (y : Fin 32) : Bool := fb[y][x]

/-- `FB[x,y] <- b` (10_state.md R29). -/
def setPixel (fb : FrameBuffer) (x : Fin 64) (y : Fin 32) (b : Bool) : FrameBuffer :=
  fb.set y (fb[y].set x b)

/-- What a draw returns: a lit pixel goes dark (60_exceptions.md R175). -/
def collides (cur new : Bool) : Bool := cur && !new

/-- `GfxDraw` on the grid: XOR the bit in and report a collision (60_exceptions.md R175). -/
def drawPixel (fb : FrameBuffer) (x : Fin 64) (y : Fin 32) (bit : Bool) : Bool × FrameBuffer :=
  (collides (pixel fb x y) (pixel fb x y ^^ bit), setPixel fb x y (pixel fb x y ^^ bit))

/-- `GfxGet(x, y)`, the host's pixel query (60_exceptions.md R173). -/
def gfxGet (x y : Nat) (s : State) : Except Fault Bool :=
  if h : x < 64 ∧ y < 32 then .ok (pixel s.fb ⟨x, h.1⟩ ⟨y, h.2⟩)
  else .error (.coordinateOutOfRange x y)

/-- `GfxSet(x, y, b)`, a host operation only (60_exceptions.md R174). -/
def gfxSet (x y : Nat) (b : Bool) (s : State) : Except Fault State :=
  if h : x < 64 ∧ y < 32 then .ok { s with fb := setPixel s.fb ⟨x, h.1⟩ ⟨y, h.2⟩ b }
  else .error (.coordinateOutOfRange x y)

/-- `GfxDraw(x, y, bit)` with its bounds check (60_exceptions.md R175). -/
def gfxDraw (x y : Nat) (bit : Bool) (s : State) : Except Fault (Bool × State) :=
  if h : x < 64 ∧ y < 32 then
    .ok ((drawPixel s.fb ⟨x, h.1⟩ ⟨y, h.2⟩ bit).1,
      { s with fb := (drawPixel s.fb ⟨x, h.1⟩ ⟨y, h.2⟩ bit).2 })
  else .error (.coordinateOutOfRange x y)

/-- Draw the columns `cs` of one sprite row, collecting collisions. The coordinates are on the grid by
construction, so the check of `GfxDraw` cannot fail (44_display.md R141, 60_exceptions.md R167). -/
def drawCols (vx : Byte) (y : Fin 32) (b : Byte) : List Nat → Bool → FrameBuffer → Bool × FrameBuffer
  | [], coll, fb => (coll, fb)
  | c :: cs, coll, fb =>
    drawCols vx y b cs
      (coll || (drawPixel fb (spriteCol vx c) y (spriteBit b c)).1)
      (drawPixel fb (spriteCol vx c) y (spriteBit b c)).2

/-- The eight columns of a sprite row, leftmost first (44_display.md R141). -/
def spriteCols : List Nat := [0, 1, 2, 3, 4, 5, 6, 7]

/-- Draw `rows` sprite rows from row `r` on, each byte read when its row is drawn, stopping at the first
read that raises with the rows before it drawn (44_display.md R141). -/
def drawRows (vx vy : Byte) (base : Nat) : (rows r : Nat) → Bool → State → Flow Bool
  | 0, _, coll, s => .go coll s
  | rows + 1, r, coll, s =>
    match memRead (base + r) s with
    | .error f => .stop f s
    | .ok b =>
      drawRows vx vy base rows (r + 1)
        (drawCols vx (spriteRow vy r) b spriteCols coll s.fb).1
        { s with fb := (drawCols vx (spriteRow vy r) b spriteCols coll s.fb).2 }

/-- DRAWFLAG := 1 (40_cycle_fetch_decode.md R95). -/
def markDrawn (s : State) : State := { s with drawFlag := true }

/-! ### Keypad -/

/-- `KeyPress(k)` (60_exceptions.md R176). -/
def keyPress (k : Nat) (s : State) : Except Fault State :=
  if h : k < 16 then .ok { s with key := s.key.set k true, anyKey := true, lastKey := ⟨k, h⟩ }
  else .error (.invalidKey k)

/-- `KeyRelease(k)`: ANYKEY clears whichever key is released (60_exceptions.md R177, C6). -/
def keyRelease (k : Nat) (s : State) : Except Fault State :=
  if h : k < 16 then .ok { s with key := s.key.set k false, anyKey := false }
  else .error (.invalidKey k)

/-- `KeyIsPressed(k)` (60_exceptions.md R178). -/
def keyIsPressed (k : Nat) (s : State) : Except Fault Bool :=
  if h : k < 16 then .ok s.key[k] else .error (.invalidKey k)

/-- `KeyIsPressed` as EX9E and EXA1 use it: `InvalidKey` is caught and means "not pressed"
(60_exceptions.md R168, C4, D17). -/
def keyDown (k : Nat) (s : State) : Bool :=
  match keyIsPressed k s with
  | .ok b => b
  | .error _ => false

/-! ### Timers -/

/-- `TimerGet(T)` (60_exceptions.md R179). -/
def timerGet (t : Timer) (s : State) : Byte :=
  match t with
  | .delay => s.dt
  | .sound => s.st

/-- `TimerSet(T, v)` (60_exceptions.md R180). -/
def timerSet (t : Timer) (b : Byte) (s : State) : State :=
  match t with
  | .delay => { s with dt := b }
  | .sound => { s with st := b }

/-- One less, and never below zero (60_exceptions.md R181). -/
def countDown (b : Byte) : Byte := if b = 0#8 then 0#8 else b - 1#8

/-- `TimerTick(T)` (60_exceptions.md R181). -/
def timerTick (t : Timer) (s : State) : State := timerSet t (countDown (timerGet t s)) s

/-! ### Register accessors, random byte, outputs -/

/-- `RegGet(i)`, the host's accessor (60_exceptions.md R182). -/
def regGet (n : Nat) (s : State) : Except Fault Byte :=
  if h : n < 16 then .ok (getV ⟨n, h⟩ s) else .error (.registerIndexInvalid n)

/-- `RegSet(i, v)`, the host's accessor (60_exceptions.md R182). -/
def regSet (n : Nat) (b : Byte) (s : State) : Except Fault State :=
  if h : n < 16 then .ok (setV ⟨n, h⟩ b s) else .error (.registerIndexInvalid n)

/-- The byte `RandomByte()` returns next: a free value (60_exceptions.md R183, D12, log 8). -/
def randomByte (s : State) : Byte := Config.rnd s.draws

/-- One draw has been used up (60_exceptions.md R183). -/
def countDraw (s : State) : State := { s with draws := s.draws + 1 }

/-- The output `BUZZ = (ST > 0)`, a level (60_exceptions.md R187, D3). -/
def buzz (s : State) : Bool := decide (s.st.toNat > 0)

/-- The number of an error kind (60_exceptions.md R161). -/
def faultCode : Fault → Nat
  | .addressOutOfRange _ => 1
  | .registerIndexInvalid _ => 2
  | .stackPointerInvalid _ => 3
  | .coordinateOutOfRange _ _ => 4
  | .invalidKey _ => 5
  | .invalidInstruction _ => 6

end Sys2Proof.Machine
end

