-- ==== Sys2Proof/Machine/Alu.lean ====
section
/-!
DEFINITION. The register and arithmetic instructions (42_alu.md). The statements run in the order
written, each reading what the one before left (00_scope.md R11), which decides the cases with X or Y
equal to 0xF (42_alu.md R124, D6, log 9).
-/

namespace Sys2Proof.Machine

/-- 6XNN (42_alu.md R110). -/
def execLdImm (x : Reg) (nn : Byte) (s : State) : Result := .next (setV x nn s)

/-- 7XNN: no flag (42_alu.md R111). -/
def execAddImm (x : Reg) (nn : Byte) (s : State) : Result := .next (setV x (getV x s + nn) s)

/-- 8XY0 (42_alu.md R112). -/
def execLdReg (x y : Reg) (s : State) : Result := .next (setV x (getV y s) s)

/-- 8XY1 (42_alu.md R113). -/
def execOrReg (x y : Reg) (s : State) : Result := .next (setV x (getV x s ||| getV y s) s)

/-- 8XY2 (42_alu.md R114). -/
def execAndReg (x y : Reg) (s : State) : Result := .next (setV x (getV x s &&& getV y s) s)

/-- 8XY3 (42_alu.md R115). -/
def execXorReg (x y : Reg) (s : State) : Result := .next (setV x (getV x s ^^^ getV y s) s)

/-- 8XY4: both operands are read into the sum before either write (42_alu.md R116). -/
def execAddReg (x y : Reg) (s : State) : Result :=
  .next (setV x (getV x s + getV y s) (setFlag (carry (getV x s) (getV y s)) s))

/-- The second statement of 8XY5: V[X] := V[X] − V[Y], read after the flag write (42_alu.md R117). -/
def subInto (x y : Reg) (s : State) : State := setV x (getV x s - getV y s) s

/-- 8XY5 (42_alu.md R117). -/
def execSub (x y : Reg) (s : State) : Result :=
  .next (subInto x y (setFlag (noBorrow (getV x s) (getV y s)) s))

/-- The second statement of 8XY6: V[X] := V[Y] >> 1, read after the flag write (42_alu.md R118). -/
def shrInto (x y : Reg) (s : State) : State := setV x (getV y s >>> 1) s

/-- 8XY6: the value shifted is V[Y] (42_alu.md R118). -/
def execShr (x y : Reg) (s : State) : Result :=
  .next (shrInto x y (setFlag (shiftedOutLow (getV y s)) s))

/-- The second statement of 8XY7: V[X] := V[Y] − V[X], read after the flag write (42_alu.md R119). -/
def subnInto (x y : Reg) (s : State) : State := setV x (getV y s - getV x s) s

/-- 8XY7 (42_alu.md R119). -/
def execSubn (x y : Reg) (s : State) : Result :=
  .next (subnInto x y (setFlag (noBorrow (getV y s) (getV x s)) s))

/-- The second statement of 8XYE: V[X] := V[Y] << 1, read after the flag write (42_alu.md R120). -/
def shlInto (x y : Reg) (s : State) : State := setV x (getV y s <<< 1) s

/-- 8XYE: the value shifted is V[Y] (42_alu.md R120). -/
def execShl (x y : Reg) (s : State) : Result :=
  .next (shlInto x y (setFlag (shiftedOutHigh (getV y s)) s))

/-- CXNN: one draw per execution, a free value (42_alu.md R121, D12, log 8). -/
def execRnd (x : Reg) (nn : Byte) (s : State) : Result :=
  .next (setV x (randomByte s &&& nn) (countDraw s))

end Sys2Proof.Machine
end

