-- ==== Sys2Proof/Machine/Display.lean ====
section
/-!
DEFINITION. The display instructions (44_display.md).
-/

namespace Sys2Proof.Machine

/-- 00E0: DRAWFLAG is set whether or not a pixel changes (44_display.md R140, D11, log 14). -/
def execCls (s : State) : Result := .next (markDrawn (gfxClear s))

/-- DXYN: V[X], V[Y] and I are read first, VF and DRAWFLAG written last and only if no sprite read
raised (44_display.md R141, D7, D10). -/
def execDrw (x y : Reg) (n : Fin 16) (s : State) : Result :=
  (drawRows (getV x s) (getV y s) (baseAddr s) n.val 0 false s).finish fun coll s' =>
    markDrawn (setFlag coll s')

end Sys2Proof.Machine
end

