-- ==== Sys2Proof/Machine/Flow.lean ====
section
/-!
DEFINITION. The control transfer instructions (41_flow.md). PC already holds PC0 + 2
(40_cycle_fetch_decode.md R93). No target is checked before the next fetch.
-/

namespace Sys2Proof.Machine

/-- 00EE (41_flow.md R100). -/
def execRet (s : State) : Result :=
  match popReturn s with
  | .error f => raise f s
  | .ok (w, s') => .next { s' with pc := w }

/-- 1NNN (41_flow.md R101). -/
def execJp (nnn : Addr12) (s : State) : Result := .next { s with pc := addrOf nnn }

/-- 2NNN: the saved PC is the address after the call (41_flow.md R102). -/
def execCall (nnn : Addr12) (s : State) : Result :=
  match pushReturn s.pc s with
  | .error f => raise f s
  | .ok s' => .next { s' with pc := addrOf nnn }

/-- BNNN: always V0, and no reduction of the sum (41_flow.md R103). -/
def execJpV0 (nnn : Addr12) (s : State) : Result := .next { s with pc := addrOf nnn + wordOf (getV 0 s) }

/-- 3XNN (41_flow.md R105). -/
def execSeImm (x : Reg) (nn : Byte) (s : State) : Result := .next (skipIf (getV x s == nn) s)

/-- 4XNN (41_flow.md R106). -/
def execSneImm (x : Reg) (nn : Byte) (s : State) : Result := .next (skipIf (getV x s != nn) s)

/-- 5XY0 (41_flow.md R107). -/
def execSeReg (x y : Reg) (s : State) : Result := .next (skipIf (getV x s == getV y s) s)

/-- 9XY0 (41_flow.md R108). -/
def execSneReg (x y : Reg) (s : State) : Result := .next (skipIf (getV x s != getV y s) s)

end Sys2Proof.Machine
end

