-- ==== Sys2Proof/Machine/IndexMemory.lean ====
section
/-!
DEFINITION. The index register and memory instructions (43_index_memory.md).
-/

namespace Sys2Proof.Machine

/-- ANNN (43_index_memory.md R130). -/
def execLdI (nnn : Addr12) (s : State) : Result := .next { s with i := addrOf nnn }

/-- FX1E: modulo 65536, no flag (43_index_memory.md R131). -/
def execAddI (x : Reg) (s : State) : Result := .next { s with i := s.i + wordOf (getV x s) }

/-- FX29: an address, no memory access (43_index_memory.md R132). -/
def execLdF (x : Reg) (s : State) : Result := .next { s with i := glyphAddr (getV x s) }

/-- FX33: I is not changed (43_index_memory.md R133). -/
def execLdB (x : Reg) (s : State) : Result :=
  (storeBytes (baseAddr s) (decimalDigits (getV x s)) s).finish fun _ s' => s'

/-- FX55: I advances only if no store raised (43_index_memory.md R134). -/
def execStRegs (x : Reg) (s : State) : Result :=
  (storeBytes (baseAddr s) ((regsUpTo x).map fun k => getV k s) s).finish fun _ s' => advanceI x s'

/-- FX65: I advances only if no load raised (43_index_memory.md R135). -/
def execLdRegs (x : Reg) (s : State) : Result :=
  (loadRegsFrom (baseAddr s) (regsUpTo x) s).finish fun _ s' => advanceI x s'

end Sys2Proof.Machine
end

