-- ==== Sys2Proof/Machine/KeypadTimer.lean ====
section
/-!
DEFINITION. The keypad and timer instructions (45_keypad_timer.md).
-/

namespace Sys2Proof.Machine

/-- EX9E: the key number is all of V[X] (45_keypad_timer.md R150, D17, log 12). -/
def execSkp (x : Reg) (s : State) : Result := .next (skipIf (keyDown (getV x s).toNat s) s)

/-- EXA1 (45_keypad_timer.md R151, D17, log 12). -/
def execSknp (x : Reg) (s : State) : Result := .next (skipIf (!keyDown (getV x s).toNat s) s)

/-- FX0A: with ANYKEY clear PC goes back so that the next cycle fetches this word again
(45_keypad_timer.md R152). -/
def execLdVxK (x : Reg) (s : State) : Result :=
  if s.anyKey then .next (setV x (BitVec.ofNat 8 s.lastKey.val) s)
  else .next { s with pc := s.pc - 2#16 }

/-- FX07 (45_keypad_timer.md R153). -/
def execLdVxDt (x : Reg) (s : State) : Result := .next (setV x (timerGet .delay s) s)

/-- FX15 (45_keypad_timer.md R154). -/
def execLdDtVx (x : Reg) (s : State) : Result := .next (timerSet .delay (getV x s) s)

/-- FX18 (45_keypad_timer.md R155). -/
def execLdStVx (x : Reg) (s : State) : Result := .next (timerSet .sound (getV x s) s)

end Sys2Proof.Machine
end

