-- ==== Sys2Proof/Machine/HostCalls.lean ====
section
/-!
DEFINITION. The components' operations as the surroundings call them (60_exceptions.md section 4 and R190,
20_memory.md R67). A call that raises is reported to its caller and recorded like any fault: every fault is
fatal to the run (60_exceptions.md R160).
-/

namespace Sys2Proof.Machine

/-- An operation of a component, called from outside a cycle. Arguments are what the caller sends, in range
or not (60_exceptions.md R163). -/
inductive HostCall where
  | memGet (addr : Nat)
  | memSet (addr : Nat) (b : Byte)
  | gfxClear
  | gfxGet (x y : Nat)
  | gfxSet (x y : Nat) (bit : Bool)
  | gfxDraw (x y : Nat) (bit : Bool)
  | keyPress (key : Nat)
  | keyRelease (key : Nat)
  | keyIsPressed (key : Nat)
  | timerGet (t : Timer)
  | timerSet (t : Timer) (b : Byte)
  | timerTick (t : Timer)
  | regGet (index : Nat)
  | regSet (index : Nat) (b : Byte)
  deriving DecidableEq, Repr

/-- What the caller gets back. -/
inductive Reply where
  | done
  | byte (b : Byte)
  | bit (b : Bool)
  | failed (f : Fault)
  deriving DecidableEq, Repr

/-- An operation that returns a value and changes nothing. -/
def asking {α : Type} (mk : α → Reply) (r : Except Fault α) (s : State) : Except Fault (Reply × State) :=
  match r with
  | .ok a => .ok (mk a, s)
  | .error f => .error f

/-- An operation that changes the state and returns nothing. -/
def changing (r : Except Fault State) : Except Fault (Reply × State) :=
  match r with
  | .ok s => .ok (.done, s)
  | .error f => .error f

/-- An operation that does both: `GfxDraw` (60_exceptions.md R175). -/
def drawing (r : Except Fault (Bool × State)) : Except Fault (Reply × State) :=
  match r with
  | .ok (b, s) => .ok (.bit b, s)
  | .error f => .error f

/-- The operation itself: its value and the state it leaves, or what it raises (20_memory.md R67;
60_exceptions.md R172 to R182). -/
def hostOp (c : HostCall) (s : State) : Except Fault (Reply × State) :=
  match c with
  | .memGet a => asking .byte (memRead a s) s
  | .memSet a b => changing (memWrite a b s)
  | .gfxClear => changing (.ok (gfxClear s))
  | .gfxGet x y => asking .bit (gfxGet x y s) s
  | .gfxSet x y b => changing (gfxSet x y b s)
  | .gfxDraw x y b => drawing (gfxDraw x y b s)
  | .keyPress k => changing (keyPress k s)
  | .keyRelease k => changing (keyRelease k s)
  | .keyIsPressed k => asking .bit (keyIsPressed k s) s
  | .timerGet t => asking .byte (.ok (timerGet t s)) s
  | .timerSet t b => changing (.ok (timerSet t b s))
  | .timerTick t => changing (.ok (timerTick t s))
  | .regGet n => asking .byte (regGet n s) s
  | .regSet n b => changing (regSet n b s)

/-- A call from outside a cycle: what is raised is reported to the caller and recorded in FAULT, so that the
CPU takes no further cycle (20_memory.md R67, 60_exceptions.md R160, 00_scope.md R14, log 6). -/
def hostCall (c : HostCall) (s : State) : Reply × State :=
  match hostOp c s with
  | .ok p => p
  | .error f => (.failed f, recordFault f s)

end Sys2Proof.Machine
end

