-- ==== Sys2Proof/Machine/Events.lean ====
section
/-!
DEFINITION. The steps of the agents other than the CPU (60_exceptions.md R171, R184) and the host's queries
(R190), each one call of a component's operation. They happen also on a machine that a fault has stopped
(40_cycle_fetch_decode.md R96).
-/

namespace Sys2Proof.Machine

/-- The operation a query calls. -/
def Query.call (q : Query) : HostCall :=
  match q with
  | .mem a => .memGet a
  | .reg n => .regGet n
  | .pixel x y => .gfxGet x y
  | .key k => .keyIsPressed k

/-- The operation an event calls: a tick of one timer (60_exceptions.md R181), a press (R176), a release
(R177), or a query (R190). -/
def Event.call (e : Event) : HostCall :=
  match e with
  | .tick t => .timerTick t
  | .keyPress k => .keyPress k
  | .keyRelease k => .keyRelease k
  | .query q => q.call

/-- One event, atomic (60_exceptions.md R184). What it raises is recorded like any fault (R160, R189); the
reply is the caller's. -/
def deliver (e : Event) (s : State) : Result := .next (hostCall e.call s).2

end Sys2Proof.Machine
end

