-- ==== Sys2Proof/Machine/Cycle.lean ====
section
/-!
DEFINITION. The CPU's cycle (40_cycle_fetch_decode.md R90 to R96) and how an instruction word is put
where the next fetch reads.
-/

namespace Sys2Proof.Machine

/-- Decode the fetched word and execute it, or raise `InvalidInstruction` (40_cycle_fetch_decode.md R92,
R94). -/
def decodeExecute (w : Word) (s : State) : Result :=
  match decode w with
  | .ok i => exec i s
  | .error _ => raise (.invalidInstruction w) s

/-- `cycle()` of 40_cycle_fetch_decode.md R90. A machine whose FAULT is set takes no cycle: it is stuck,
with the recorded fault as the reason (R96, log 6). -/
def cycle (s : State) : Result :=
  match s.fault with
  | some f => .fault f
  | none =>
    match fetchWord (beginCycle s) with
    | .error f => raise f (beginCycle s)
    | .ok w => decodeExecute w (fetched w s)

/-- Whoever's turn it is steps (60_exceptions.md R184, log 7). -/
def takeTurn (s : State) : Result :=
  match s.agenda with
  | [] => cycle s
  | .cycle :: rest => cycle { s with agenda := rest }
  | .event e :: rest => deliver e { s with agenda := rest }

/-- The address of the next fetch, or the entry point where no word can be fetched at PC. -/
def fetchAddr (s : State) : Word := if s.pc.toNat + 1 < Config.memSize then s.pc else 0x200#16

/-- Put `w` big-endian where the next step fetches, with the CPU's turn next and no fault pending
(log 16). -/
def placeWord (w : Word) (s : State) : State :=
  { s with
    pc := fetchAddr s
    fault := none
    agenda := []
    mem := Memory.write (Memory.write s.mem (fetchAddr s).toNat (hiByte w)) ((fetchAddr s).toNat + 1) (loByte w) }

end Sys2Proof.Machine
end

