-- ==== Sys2Proof/Machine/Step.lean ====
section
/-!
DEFINITION. One step of the machine: one element of an execution (60_exceptions.md R184).
-/

namespace Sys2Proof.Machine

/-- One whole cycle, one tick, one key press or one key release, as the agenda says. -/
def step (s : State) : Host.Outcome State Fault Refusal := takeTurn s

/-- `s` with the instruction of `tableWord nbits w` where `step` fetches its next one. -/
def State.withFetchWord (s : State) (nbits w : Nat) : State := placeWord (tableWord nbits w) s

end Sys2Proof.Machine
end

