-- ==== Sys2Proof/Machine/Boot.lean ====
section
/-!
DEFINITION. Reset with a font and a program image: the bootstrap that runs before the first cycle
(70_reset_and_hazards.md R200, R202 to R204).
-/

namespace Sys2Proof.Machine

/-- A font is 80 bytes that begin with the source's glyph 0 (70_reset_and_hazards.md R202, D18). -/
def fontOk (f : List Byte) : Bool := f.length == Config.fontBytes && f.take 5 == fontGlyph0

/-- `reset(ROM)` with `FONT`: the loaders put the font at 0x000 and the image at 0x200 with `Memory.set`
(60_exceptions.md R188). A longer image or another font is refused: they are premises of reset. -/
def boot (f rom : List Byte) : Result :=
  if rom.length > Config.maxProgramBytes then .refused (.romTooLong rom.length)
  else if fontOk f then
    match storeBytes Config.fontBase f State.reset with
    | .stop e s => raise e s
    | .go () s => (storeBytes Config.programBase rom s).finish fun _ s' => s'
  else .refused (.fontIllFormed f.length)

end Sys2Proof.Machine
end

