-- ==== Sys2Proof/Safety.lean ====
section
/-!
DEFINITION. The terms claims are made in: the opcode table as masks, when a cycle runs a word, which
instruction may touch which state, when and how it faults, the invariant of every run, and the spec's
two ends of a run.
-/

namespace Sys2Proof

/-! ### The opcode table (30_encoding.md R75) -/

/-- A row of 30_encoding.md R75: a word `op` is the row's instruction exactly when
`op AND mask = value`. -/
structure OpcodeRow where
  mnemonic : String
  mask : Word
  value : Word
  make : Word → Instr

/-- The word matches the row (30_encoding.md R75). -/
def OpcodeRow.matches (r : OpcodeRow) (op : Word) : Bool := op &&& r.mask == r.value

/-- The 34 rows of 30_encoding.md R75, in its order, with the field values of R71. -/
def opcodeTable : List OpcodeRow := [
  ⟨"CLS", 0xFFFF#16, 0x00E0#16, fun _ => .cls⟩,
  ⟨"RET", 0xFFFF#16, 0x00EE#16, fun _ => .ret⟩,
  ⟨"JP", 0xF000#16, 0x1000#16, fun op => .jp (fieldNNN op)⟩,
  ⟨"CALL", 0xF000#16, 0x2000#16, fun op => .call (fieldNNN op)⟩,
  ⟨"SE.imm", 0xF000#16, 0x3000#16, fun op => .seImm (fieldX op) (fieldNN op)⟩,
  ⟨"SNE.imm", 0xF000#16, 0x4000#16, fun op => .sneImm (fieldX op) (fieldNN op)⟩,
  ⟨"SE.reg", 0xF00F#16, 0x5000#16, fun op => .seReg (fieldX op) (fieldY op)⟩,
  ⟨"LD.imm", 0xF000#16, 0x6000#16, fun op => .ldImm (fieldX op) (fieldNN op)⟩,
  ⟨"ADD.imm", 0xF000#16, 0x7000#16, fun op => .addImm (fieldX op) (fieldNN op)⟩] ++ [
  ⟨"LD.reg", 0xF00F#16, 0x8000#16, fun op => .ldReg (fieldX op) (fieldY op)⟩,
  ⟨"OR", 0xF00F#16, 0x8001#16, fun op => .orReg (fieldX op) (fieldY op)⟩,
  ⟨"AND", 0xF00F#16, 0x8002#16, fun op => .andReg (fieldX op) (fieldY op)⟩,
  ⟨"XOR", 0xF00F#16, 0x8003#16, fun op => .xorReg (fieldX op) (fieldY op)⟩,
  ⟨"ADD.reg", 0xF00F#16, 0x8004#16, fun op => .addReg (fieldX op) (fieldY op)⟩,
  ⟨"SUB", 0xF00F#16, 0x8005#16, fun op => .sub (fieldX op) (fieldY op)⟩,
  ⟨"SHR", 0xF00F#16, 0x8006#16, fun op => .shr (fieldX op) (fieldY op)⟩,
  ⟨"SUBN", 0xF00F#16, 0x8007#16, fun op => .subn (fieldX op) (fieldY op)⟩,
  ⟨"SHL", 0xF00F#16, 0x800E#16, fun op => .shl (fieldX op) (fieldY op)⟩] ++ [
  ⟨"SNE.reg", 0xF00F#16, 0x9000#16, fun op => .sneReg (fieldX op) (fieldY op)⟩,
  ⟨"LD.I", 0xF000#16, 0xA000#16, fun op => .ldI (fieldNNN op)⟩,
  ⟨"JP.V0", 0xF000#16, 0xB000#16, fun op => .jpV0 (fieldNNN op)⟩,
  ⟨"RND", 0xF000#16, 0xC000#16, fun op => .rnd (fieldX op) (fieldNN op)⟩,
  ⟨"DRW", 0xF000#16, 0xD000#16, fun op => .drw (fieldX op) (fieldY op) (fieldN op)⟩,
  ⟨"SKP", 0xF0FF#16, 0xE09E#16, fun op => .skp (fieldX op)⟩,
  ⟨"SKNP", 0xF0FF#16, 0xE0A1#16, fun op => .sknp (fieldX op)⟩,
  ⟨"LD.Vx.DT", 0xF0FF#16, 0xF007#16, fun op => .ldVxDt (fieldX op)⟩,
  ⟨"LD.Vx.K", 0xF0FF#16, 0xF00A#16, fun op => .ldVxK (fieldX op)⟩] ++ [
  ⟨"LD.DT.Vx", 0xF0FF#16, 0xF015#16, fun op => .ldDtVx (fieldX op)⟩,
  ⟨"LD.ST.Vx", 0xF0FF#16, 0xF018#16, fun op => .ldStVx (fieldX op)⟩,
  ⟨"ADD.I", 0xF0FF#16, 0xF01E#16, fun op => .addI (fieldX op)⟩,
  ⟨"LD.F", 0xF0FF#16, 0xF029#16, fun op => .ldF (fieldX op)⟩,
  ⟨"LD.B", 0xF0FF#16, 0xF033#16, fun op => .ldB (fieldX op)⟩,
  ⟨"ST.regs", 0xF0FF#16, 0xF055#16, fun op => .stRegs (fieldX op)⟩,
  ⟨"LD.regs", 0xF0FF#16, 0xF065#16, fun op => .ldRegs (fieldX op)⟩]

/-- The words of one row: exactly those with `op AND mask = value` decode to the row's instruction
(30_encoding.md R75). -/
def Encodes (mask value : Word) (make : Word → Instr) : Prop :=
  ∀ op : Word, op &&& mask = value ↔ decode op = .ok (make op)

/-- The words of a family with the given low nibble missing are invalid (30_encoding.md R76). -/
def NeedsLowNibbleZero (value : Word) : Prop :=
  ∀ op : Word, op &&& 0xF000#16 = value → op &&& 0x000F#16 ≠ 0#16 →
    decode op = .error (.invalidInstruction op)

/-! ### What each instruction may touch -/

/-- The bytes of memory an instruction accesses from I upward (20_memory.md R59). -/
def Instr.accessCount : Instr → Nat
  | .drw _ _ n => n.val
  | .ldB _ => 3
  | .stRegs x => x.val + 1
  | .ldRegs x => x.val + 1
  | .cls | .ret | .jp _ | .call _ | .seImm _ _ | .sneImm _ _ | .seReg _ _ | .ldImm _ _ | .addImm _ _
  | .ldReg _ _ | .orReg _ _ | .andReg _ _ | .xorReg _ _ | .addReg _ _ | .sub _ _ | .shr _ _ | .subn _ _
  | .shl _ _ | .sneReg _ _ | .ldI _ | .jpV0 _ | .rnd _ _ | .skp _ | .sknp _ | .ldVxDt _ | .ldVxK _
  | .ldDtVx _ | .ldStVx _ | .addI _ | .ldF _ => 0

/-- The bytes of memory an instruction stores from I upward (20_memory.md R59). -/
def Instr.storeCount : Instr → Nat
  | .ldB _ => 3
  | .stRegs x => x.val + 1
  | .cls | .ret | .jp _ | .call _ | .seImm _ _ | .sneImm _ _ | .seReg _ _ | .ldImm _ _ | .addImm _ _
  | .ldReg _ _ | .orReg _ _ | .andReg _ _ | .xorReg _ _ | .addReg _ _ | .sub _ _ | .shr _ _ | .subn _ _
  | .shl _ _ | .sneReg _ _ | .ldI _ | .jpV0 _ | .rnd _ _ | .drw _ _ _ | .skp _ | .sknp _ | .ldVxDt _
  | .ldVxK _ | .ldDtVx _ | .ldStVx _ | .addI _ | .ldF _ | .ldRegs _ => 0

/-- The registers an instruction may write: the last column of 10_state.md R37. -/
def Instr.writesV (k : Reg) : Instr → Bool
  | .ldImm x _ | .addImm x _ | .ldReg x _ | .orReg x _ | .andReg x _ | .xorReg x _ | .rnd x _
  | .ldVxDt x | .ldVxK x => k == x
  | .addReg x _ | .sub x _ | .shr x _ | .subn x _ | .shl x _ => k == 0xF || k == x
  | .drw _ _ _ => k == 0xF
  | .ldRegs x => decide (k ≤ x)
  | .cls | .ret | .jp _ | .call _ | .seImm _ _ | .sneImm _ _ | .seReg _ _ | .sneReg _ _ | .ldI _
  | .jpV0 _ | .skp _ | .sknp _ | .ldDtVx _ | .ldStVx _ | .addI _ | .ldF _ | .ldB _ | .stRegs _ => false

/-- The registers an instruction reads: the middle column of 10_state.md R37. -/
def Instr.readsV (k : Reg) : Instr → Bool
  | .seImm x _ | .sneImm x _ | .addImm x _ | .skp x | .sknp x | .ldDtVx x | .ldStVx x | .addI x
  | .ldF x | .ldB x => k == x
  | .seReg x y | .sneReg x y | .orReg x y | .andReg x y | .xorReg x y | .addReg x y | .sub x y
  | .subn x y | .drw x y _ => k == x || k == y
  | .ldReg _ y | .shr _ y | .shl _ y => k == y
  | .jpV0 _ => k == 0
  | .stRegs x => decide (k ≤ x)
  | .cls | .ret | .jp _ | .call _ | .ldImm _ _ | .ldI _ | .rnd _ _ | .ldVxDt _ | .ldVxK _
  | .ldRegs _ => false

/-- The instructions whose pseudocode assigns PC (40_cycle_fetch_decode.md R93; 41_flow.md,
45_keypad_timer.md R150 to R152). -/
def Instr.writesPc : Instr → Bool
  | .ret | .jp _ | .call _ | .seImm _ _ | .sneImm _ _ | .seReg _ _ | .sneReg _ _ | .jpV0 _ | .skp _
  | .sknp _ | .ldVxK _ => true
  | .cls | .ldImm _ _ | .addImm _ _ | .ldReg _ _ | .orReg _ _ | .andReg _ _ | .xorReg _ _ | .addReg _ _
  | .sub _ _ | .shr _ _ | .subn _ _ | .shl _ _ | .ldI _ | .rnd _ _ | .drw _ _ _ | .ldVxDt _ | .ldDtVx _
  | .ldStVx _ | .addI _ | .ldF _ | .ldB _ | .stRegs _ | .ldRegs _ => false

/-- The instructions that write I (10_state.md R23). -/
def Instr.writesI : Instr → Bool
  | .ldI _ | .addI _ | .ldF _ | .stRegs _ | .ldRegs _ => true
  | .cls | .ret | .jp _ | .call _ | .seImm _ _ | .sneImm _ _ | .seReg _ _ | .ldImm _ _ | .addImm _ _
  | .ldReg _ _ | .orReg _ _ | .andReg _ _ | .xorReg _ _ | .addReg _ _ | .sub _ _ | .shr _ _ | .subn _ _
  | .shl _ _ | .sneReg _ _ | .jpV0 _ | .rnd _ _ | .drw _ _ _ | .skp _ | .sknp _ | .ldVxDt _ | .ldVxK _
  | .ldDtVx _ | .ldStVx _ | .ldB _ => false

/-- The instructions that touch SP and STACK (10_state.md R25). -/
def Instr.usesStack : Instr → Bool
  | .ret | .call _ => true
  | .cls | .jp _ | .seImm _ _ | .sneImm _ _ | .seReg _ _ | .ldImm _ _ | .addImm _ _
  | .ldReg _ _ | .orReg _ _ | .andReg _ _ | .xorReg _ _ | .addReg _ _ | .sub _ _ | .shr _ _ | .subn _ _
  | .shl _ _ | .sneReg _ _ | .ldI _ | .jpV0 _ | .rnd _ _ | .drw _ _ _ | .skp _ | .sknp _ | .ldVxDt _
  | .ldVxK _ | .ldDtVx _ | .ldStVx _ | .addI _ | .ldF _ | .ldB _ | .stRegs _ | .ldRegs _ => false

/-- The instructions that write the framebuffer (10_state.md R29). -/
def Instr.writesFrame : Instr → Bool
  | .cls | .drw _ _ _ => true
  | .ret | .jp _ | .call _ | .seImm _ _ | .sneImm _ _ | .seReg _ _ | .ldImm _ _ | .addImm _ _
  | .ldReg _ _ | .orReg _ _ | .andReg _ _ | .xorReg _ _ | .addReg _ _ | .sub _ _ | .shr _ _ | .subn _ _
  | .shl _ _ | .sneReg _ _ | .ldI _ | .jpV0 _ | .rnd _ _ | .skp _ | .sknp _ | .ldVxDt _ | .ldVxK _
  | .ldDtVx _ | .ldStVx _ | .addI _ | .ldF _ | .ldB _ | .stRegs _ | .ldRegs _ => false

/-- The instructions that access the given timer (10_state.md R26). -/
def Instr.usesTimer (t : Machine.Timer) : Instr → Bool
  | .ldVxDt _ | .ldDtVx _ => t == .delay
  | .ldStVx _ => t == .sound
  | .cls | .ret | .jp _ | .call _ | .seImm _ _ | .sneImm _ _ | .seReg _ _ | .ldImm _ _ | .addImm _ _
  | .ldReg _ _ | .orReg _ _ | .andReg _ _ | .xorReg _ _ | .addReg _ _ | .sub _ _ | .shr _ _ | .subn _ _
  | .shl _ _ | .sneReg _ _ | .ldI _ | .jpV0 _ | .rnd _ _ | .drw _ _ _ | .skp _ | .sknp _ | .ldVxK _
  | .addI _ | .ldF _ | .ldB _ | .stRegs _ | .ldRegs _ => false

namespace Machine

/-! ### Running a word -/

/-- A CPU cycle from `s` would fetch `op`: no fault is recorded, PC is at most 4094, and the two bytes
at PC and PC + 1 are `op`, the most significant first (40_cycle_fetch_decode.md R90, R91). -/
def Fetches (s : State) (op : Word) : Prop :=
  s.fault = none ∧ s.pc.toNat ≤ 4094 ∧ s.mem.read s.pc.toNat = hiByte op ∧
    s.mem.read (s.pc.toNat + 1) = loByte op

/-- The CPU has the next turn, and `rest` is the agenda after it (60_exceptions.md R184, log 7). -/
def CpuTurn (s : State) (rest : List Turn) : Prop :=
  s.agenda = .cycle :: rest ∨ (s.agenda = [] ∧ rest = [])

/-- Change the next state an answer holds. -/
def mapNext (f : State → State) : Result → Result
  | .next s => .next (f s)
  | .fault r => .fault r
  | .refused r => .refused r

/-! ### Faults of an instruction (60_exceptions.md R162) -/

/-- The fault of accessing `count` bytes from `base` up: the first address above 4095, if any. -/
def accessFault (base count : Nat) : Option Fault :=
  if count = 0 ∨ base + count - 1 ≤ 4095 then none else some (.addressOutOfRange (max base 4096))

/-- The fault an instruction raises, row by row of 60_exceptions.md R162. -/
def faultOf (i : Instr) (s : State) : Option Fault :=
  match i with
  | .ret => if s.sp.val = 0 then some (.stackPointerInvalid 0) else none
  | .call _ => if s.sp.val = 16 then some (.stackPointerInvalid 16) else none
  | .drw _ _ n => accessFault s.i.toNat n.val
  | .ldB _ => accessFault s.i.toNat 3
  | .stRegs x => accessFault s.i.toNat (x.val + 1)
  | .ldRegs x => accessFault s.i.toNat (x.val + 1)
  | .cls | .jp _ | .seImm _ _ | .sneImm _ _ | .seReg _ _ | .ldImm _ _ | .addImm _ _
  | .ldReg _ _ | .orReg _ _ | .andReg _ _ | .xorReg _ _ | .addReg _ _ | .sub _ _ | .shr _ _ | .subn _ _
  | .shl _ _ | .sneReg _ _ | .ldI _ | .jpV0 _ | .rnd _ _ | .skp _ | .sknp _ | .ldVxDt _
  | .ldVxK _ | .ldDtVx _ | .ldStVx _ | .addI _ | .ldF _ => none

/-- The fault an operation called from outside a cycle raises, row by row of 60_exceptions.md R161. -/
def hostFault (c : HostCall) : Option Fault :=
  match c with
  | .memGet a | .memSet a _ => if a > 4095 then some (.addressOutOfRange a) else none
  | .regGet n | .regSet n _ => if n ≥ 16 then some (.registerIndexInvalid n) else none
  | .gfxGet x y | .gfxSet x y _ | .gfxDraw x y _ =>
    if x ≥ 64 ∨ y ≥ 32 then some (.coordinateOutOfRange x y) else none
  | .keyPress k | .keyRelease k | .keyIsPressed k => if k ≥ 16 then some (.invalidKey k) else none
  | .gfxClear | .timerGet _ | .timerSet _ _ | .timerTick _ => none

/-! ### Sprites -/

/-- The sprite bit that falls on pixel (px, py) when N rows are drawn at column `vx mod 64`, row
`vy mod 32`, read from `base` (44_display.md R141). -/
def spriteAt (m : Memory) (base : Nat) (vx vy : Byte) (n : Nat) (px : Fin 64) (py : Fin 32) : Bool :=
  let c := (px.val + 64 - vx.toNat % 64) % 64
  let r := (py.val + 32 - vy.toNat % 32) % 32
  decide (c < 8) && decide (r < n) && (m.read (base + r)).getLsbD (7 - c)

/-! ### The invariant of every run (10_state.md R34) -/

/-- What every reachable state satisfies beyond what the types say: memory in canonical form, PC at most
0x10FE, saved return addresses at most 0x1000, and LASTKEY down while ANYKEY is set. -/
structure Inv (s : State) : Prop where
  mem_wf : s.mem.wf = true
  pc_le : s.pc.toNat ≤ 0x10FE
  stack_le : ∀ k : Fin 16, s.stack[k].toNat ≤ 0x1000
  lastKey_down : s.anyKey = true → s.key[s.lastKey] = true

/-! ### The two ends of a run (70_reset_and_hazards.md R206) -/

/-- *Faulted*: terminal, never a successful end. -/
def Faulted (s : State) : Prop := s.fault ≠ none

/-- *Quiescent self-jump*: no fault, and the word at PC is `1NNN` with `NNN = PC`. -/
def Quiescent (s : State) : Prop :=
  ∃ nnn : Addr12, Fetches s (encode (.jp nnn)) ∧ s.pc.toNat = nnn.toNat

end Machine

end Sys2Proof
end

