-- ==== Sys2Proof/Certificates/Slice0/Obligations.lean ====
section
/-!
DEFINITION. The statements for the provers, from the numbered rules of spec/. Statements that rest on a
decision of 92_eei_decisions.md or on an inference the spec marks `[derived: …]` name it.
-/

open Sys2Proof Sys2Proof.Machine

/-! ### Encoding (30_encoding.md) -/

/-- Every instruction, at every value of its fields, decodes from its own word, and from its two bytes
whatever follows them (30_encoding.md sections 1 and 3). -/
def Obligations.DecodeOfEncodeIsTheInstruction : Prop :=
  ∀ (i : Instr) (rest : List Byte),
    decode (encode i) = .ok i ∧ decodeBytes (encodeBytes i ++ rest) = .ok (i, rest)

/-- The other way round: a word that decodes to an instruction is that instruction's word, so each
instruction has one word only (30_encoding.md section 3). -/
def Obligations.EachInstructionHasOneWord : Prop :=
  ∀ (op : Word) (i : Instr), decode op = .ok i → encode i = op

/-- 30_encoding.md R82: at most one of the 34 rows of R75 matches a word, the decoder gives that row's
instruction, and the verdict *invalid* when none does. -/
def Obligations.DecoderFollowsOpcodeTable : Prop :=
  opcodeTable.length = 34 ∧
    ∀ op : Word,
      (opcodeTable.filter fun r => r.matches op).length ≤ 1 ∧
      decode op =
        match opcodeTable.find? fun r => r.matches op with
        | some r => .ok (r.make op)
        | none => .error (.invalidInstruction op)

/-- The invalid words are the ones that the family table of 30_encoding.md section 4 lists. -/
def Obligations.InvalidWordsAreTheListedOnes : Prop :=
  ∀ op : Word,
    (decode op = .error (.invalidInstruction op) ↔ wellFormed op = false) ∧
    ((∃ i, decode op = .ok i) ↔ wellFormed op = true)

/-- Words written out from the patterns of 30_encoding.md R75, with the fields of R71. -/
def Obligations.WrittenOutWordsDecode : Prop :=
  decode 0b0000000011100000#16 = .ok .cls ∧
  decode 0b0001001000110100#16 = .ok (.jp 0x234) ∧
  decode 0b0011101001000010#16 = .ok (.seImm 0xA 0x42) ∧
  decode 0b1000000100100100#16 = .ok (.addReg 0x1 0x2) ∧
  decode 0b1010101111001101#16 = .ok (.ldI 0xBCD) ∧
  decode 0b1101000100100101#16 = .ok (.drw 0x1 0x2 5) ∧
  decode 0b1110000010011110#16 = .ok (.skp 0x0) ∧
  decode 0b1111001001010101#16 = .ok (.stRegs 0x2) ∧
  decode 0b0101000100100001#16 = .error (.invalidInstruction 0x5121)

/-! ### The cycle (40_cycle_fetch_decode.md) -/

/-- When it is the CPU's turn and the bytes at PC decode to `i`, a step is `exec i` in the state the
fetch leaves: OPCODE holds the word, PC is two further, DRAWFLAG is clear, and a `cycle` on the agenda
is used up (40_cycle_fetch_decode.md; DRAWFLAG is the spec's decision D11, log 14, the agenda log 7's). -/
def Obligations.StepRunsTheDecodedInstruction : Prop :=
  ∀ (s : State) (op : Word) (i : Instr), Fetches s op → decode op = .ok i →
    (s.agenda = [] →
      step s = exec i { s with drawFlag := false, opcode := op, pc := s.pc + 2#16 }) ∧
    (∀ rest, s.agenda = .cycle :: rest →
      step s = exec i { s with agenda := rest, drawFlag := false, opcode := op, pc := s.pc + 2#16 })

/-- 20_memory.md R53: the two-byte read composes `(hi << 8) OR lo`, and faults exactly when the address
is above 4094, at 4096 when it is 4095 and at the address itself beyond that. -/
def Obligations.TwoByteReadIsBigEndian : Prop :=
  ∀ (a : Nat) (s : State),
    (a ≤ 4094 → ∃ w : Word, memReadWord a s = .ok w ∧
      w.toNat = (s.mem.read a).toNat * 256 + (s.mem.read (a + 1)).toNat) ∧
    (a = 4095 → memReadWord a s = .error (.addressOutOfRange 4096)) ∧
    (a ≥ 4096 → memReadWord a s = .error (.addressOutOfRange a))

/-- `fetch` stores the big-endian word at PC in OPCODE and advances PC by 2; with PC above 4094 it raises
before either is written, at 4096 or at PC, and both keep their values (40_cycle_fetch_decode.md, the
entry of `fetch`). In every state without a fault in which the CPU has the turn. The turn used up is log
7's, the DRAWFLAG cleared the spec's decision D11 (log 14), the fault recorded in a next state D10's and
log 6's. -/
def Obligations.FetchReadsWordAndAdvancesPc : Prop :=
  ∀ (s : State) (rest : List Turn), s.fault = none → CpuTurn s rest →
    (s.pc.toNat ≤ 4094 → ∃ op : Word,
      op.toNat = (s.mem.read s.pc.toNat).toNat * 256 + (s.mem.read (s.pc.toNat + 1)).toNat ∧
      step s = decodeExecute op
        { s with agenda := rest, drawFlag := false, opcode := op, pc := s.pc + 2#16 }) ∧
    (s.pc.toNat = 4095 → step s = .next { s with
      agenda := rest, drawFlag := false, fault := some (.addressOutOfRange 4096) }) ∧
    (s.pc.toNat ≥ 4096 → step s = .next { s with
      agenda := rest, drawFlag := false, fault := some (.addressOutOfRange s.pc.toNat) })

/-- A fetched word that matches no row raises `InvalidInstruction` with the word; PC is already past it and
OPCODE holds it (40_cycle_fetch_decode.md, the entry on invalid instructions). The turn used up is log
7's, the DRAWFLAG cleared the spec's decision D11 (log 14), the fault recorded in a next state D10's and
log 6's. -/
def Obligations.InvalidWordRaisesInvalidInstruction : Prop :=
  ∀ (s : State) (rest : List Turn) (op : Word), Fetches s op → CpuTurn s rest →
    (∀ i, decode op ≠ .ok i) →
    step s = .next { s with
      agenda := rest, drawFlag := false, opcode := op, pc := s.pc + 2#16,
      fault := some (.invalidInstruction op) }

/-- A machine whose FAULT is set takes no cycle, and keeps its FAULT through every event
(40_cycle_fetch_decode.md section on R96; the spec's decision D10; that a stopped machine answers
`fault` is log 6's). -/
def Obligations.StoppedMachineTakesNoCycle : Prop :=
  ∀ (s : State) (f : Fault), s.fault = some f →
    (s.agenda = [] → step s = .fault f) ∧
    (∀ rest, s.agenda = .cycle :: rest → step s = .fault f) ∧
    (∀ e rest, s.agenda = .event e :: rest → ∃ t, step s = .next t ∧ t.fault = some f)

/-- After a cycle that raised nothing, DRAWFLAG says whether the word was 00E0 or a DXYN; after one that
raised it is clear (40_cycle_fetch_decode.md section on R95; the spec's decision D11, log 14; the turn is
log 7's, the fault in a next state log 6's). -/
def Obligations.DrawFlagTellsWhetherTheCycleDrew : Prop :=
  ∀ (s t : State) (rest : List Turn) (op : Word), Fetches s op → CpuTurn s rest → step s = .next t →
    (t.fault = none → (t.drawFlag = true ↔ op = 0x00E0#16 ∨ op &&& 0xF000#16 = 0xD000#16)) ∧
    (t.fault ≠ none → t.drawFlag = false)

/-- Every instruction answers a next state in every state, and raises exactly the fault that the table of
60_exceptions.md section 1 (R162, which the spec derives) gives it (the stack's faults are the spec's
decision D1, the record D10, log 6, the unreduced addresses D20, log 15). -/
def Obligations.InstructionsFaultExactlyAsTabled : Prop :=
  ∀ (i : Instr) (s : State), s.fault = none → ∃ t, exec i s = .next t ∧ t.fault = faultOf i s

/-- A cycle raises only AddressOutOfRange, StackPointerInvalid or InvalidInstruction: the other three
kinds cannot arise from it (60_exceptions.md section 1, R167, which the spec derives; the codes and the
record are the spec's decision D10, log 6, the turn log 7's). -/
def Obligations.CycleRaisesOnlyThreeKinds : Prop :=
  ∀ (s t : State) (rest : List Turn) (f : Fault), s.fault = none → CpuTurn s rest →
    step s = .next t → t.fault = some f → faultCode f = 1 ∨ faultCode f = 3 ∨ faultCode f = 6

/-! ### The invariant -/

/-- The invariant holds at reset. -/
def Obligations.ResetSatisfiesTheInvariant : Prop := Inv State.reset

/-- Every step, of the CPU or of any other agent, keeps the invariant: canonical memory, PC at most
0x10FE, saved return addresses at most 0x1000, LASTKEY down while ANYKEY is set (10_state.md section 9,
R34, whose bounds the spec derives; the bound on saved addresses and the key clause are the model's
inferences from 41_flow.md and 60_exceptions.md section 4; the canonical form is the model's). -/
def Obligations.EveryStepKeepsTheInvariant : Prop :=
  ∀ s t : State, Inv s → step s = .next t → Inv t

/-! ### Memory (20_memory.md) -/

/-- 20_memory.md R51, R52: a write inside the space is read back and changes nothing else; outside it
both accesses fail with the address. -/
def Obligations.MemoryReadsBackWhatWasWritten : Prop :=
  ∀ (a : Nat) (w : Byte) (s : State),
    (a ≤ 4095 → ∃ t, memWrite a w s = .ok t ∧ memRead a t = .ok w ∧
      (∀ b, b ≠ a → memRead b t = memRead b s) ∧ t = { s with mem := t.mem } ∧
      memRead a s = .ok (s.mem.read a)) ∧
    (a > 4095 → memRead a s = .error (.addressOutOfRange a) ∧
      memWrite a w s = .error (.addressOutOfRange a))

/-- The fetch after FX55 or FX33 reads what it stored, at every address it stored to, and the old bytes
elsewhere, with nothing needed in between: the next cycle decodes and executes the word so composed
(20_memory.md section 9; the digits are those of 43_index_memory.md, the entry of FX33; the turn used up
is log 7's, the DRAWFLAG cleared the spec's decision D11, log 14). -/
def Obligations.NextFetchSeesAStore : Prop :=
  (∀ (x : Reg) (s : State), s.i.toNat + x.val ≤ 4095 → s.pc.toNat ≤ 4094 →
    let stored (a : Nat) : Byte :=
      if h : s.i.toNat ≤ a ∧ a ≤ s.i.toNat + x.val then s.v[a - s.i.toNat]'(by omega)
      else s.mem.read a
    ∃ t, exec (.stRegs x) s = .next t ∧ t.pc = s.pc ∧
      let w := beWord (stored s.pc.toNat) (stored (s.pc.toNat + 1))
      fetchWord t = .ok w ∧
      (∀ rest, s.fault = none → CpuTurn s rest → step t = decodeExecute w
        { t with agenda := rest, drawFlag := false, opcode := w, pc := s.pc + 2#16 })) ∧
  (∀ (x : Reg) (s : State), s.i.toNat + 2 ≤ 4095 → s.pc.toNat ≤ 4094 →
    let n := (s.v[x]).toNat
    let stored (a : Nat) : Byte :=
      if a = s.i.toNat then BitVec.ofNat 8 (n / 100)
      else if a = s.i.toNat + 1 then BitVec.ofNat 8 (n / 10 % 10)
      else if a = s.i.toNat + 2 then BitVec.ofNat 8 (n % 10)
      else s.mem.read a
    ∃ t, exec (.ldB x) s = .next t ∧ t.pc = s.pc ∧
      let w := beWord (stored s.pc.toNat) (stored (s.pc.toNat + 1))
      fetchWord t = .ok w ∧
      (∀ rest, s.fault = none → CpuTurn s rest → step t = decodeExecute w
        { t with agenda := rest, drawFlag := false, opcode := w, pc := s.pc + 2#16 }))

/-! ### What instructions leave alone -/

/-- No instruction but 2NNN and 00EE touches SP or STACK (10_state.md section 5; the convention is the
spec's decision D1). -/
def Obligations.OnlyCallAndReturnTouchTheStack : Prop :=
  ∀ (i : Instr) (s t : State), i.usesStack = false → exec i s = .next t →
    t.sp = s.sp ∧ t.stack = s.stack

/-- Memory changes only at the bytes from I upward that FX33 and FX55 store (20_memory.md sections 6
and 8; the spec's decision D19 for the absence of other writers). -/
def Obligations.OnlyStoredBytesChange : Prop :=
  ∀ (i : Instr) (s t : State), exec i s = .next t →
    ∀ a : Nat, ¬ (s.i.toNat ≤ a ∧ a < s.i.toNat + i.storeCount) → t.mem.read a = s.mem.read a

/-- No instruction writes the keypad; only 00E0 and DXYN write the framebuffer and DRAWFLAG; DT and ST
change only by FX15 and FX18 (10_state.md sections 5, 7 and 8; DRAWFLAG is the spec's decision D11, log
14). -/
def Obligations.DevicesChangeOnlyByTheirInstructions : Prop :=
  ∀ (i : Instr) (s t : State), exec i s = .next t →
    (t.key = s.key ∧ t.anyKey = s.anyKey ∧ t.lastKey = s.lastKey) ∧
    (i.writesFrame = false → t.fb = s.fb ∧ t.drawFlag = s.drawFlag) ∧
    ((∀ x, i ≠ .ldDtVx x) → t.dt = s.dt) ∧
    ((∀ x, i ≠ .ldStVx x) → t.st = s.st)

/-- Every general register outside the instruction's entry in the last column of 10_state.md's table of
register use keeps its value; so VF changes only by the six flag writers or as the destination X. -/
def Obligations.RegistersChangeOnlyAsTabled : Prop :=
  ∀ (i : Instr) (s t : State) (k : Reg), i.writesV k = false → exec i s = .next t → t.v[k] = s.v[k]

/-- A register the table of 10_state.md section 2 gives neither as read nor as written is irrelevant:
executing with another value in it gives the same answer but for that value. -/
def Obligations.UntabledRegistersAreIrrelevant : Prop :=
  ∀ (i : Instr) (s : State) (k : Reg) (b : Byte), i.readsV k = false → i.writesV k = false →
    exec i (setV k b s) = mapNext (setV k b) (exec i s)

/-- I is written by ANNN, FX1E, FX29, FX55 and FX65 only (10_state.md section 5). -/
def Obligations.OnlyIndexInstructionsWriteI : Prop :=
  ∀ (i : Instr) (s t : State), i.writesI = false → exec i s = .next t → t.i = s.i

/-- An instruction whose pseudocode does not assign PC leaves it past itself
(40_cycle_fetch_decode.md, end of the section on R93). -/
def Obligations.OtherInstructionsFallThrough : Prop :=
  ∀ (i : Instr) (s t : State), i.writesPc = false → exec i s = .next t → t.pc = s.pc

/-- Nothing happens inside a cycle: what is on the agenda has no influence on an instruction and is not
changed by it (60_exceptions.md section 5; the spec's decision D13; the agenda is log 7's). -/
def Obligations.InstructionsIgnoreTheAgenda : Prop :=
  ∀ (i : Instr) (s : State) (l : List Turn),
    exec i { s with agenda := l } = mapNext (fun t => { t with agenda := l }) (exec i s) ∧
    (∀ t, exec i s = .next t → t.agenda = s.agenda ∧ t.opcode = s.opcode)

/-- A tick just before an instruction and one just after it give the same state, unless the instruction
accesses that timer (20_memory.md section 8, R65, which the spec derives). -/
def Obligations.TicksCommuteWithOtherInstructions : Prop :=
  ∀ (i : Instr) (s : State) (T : Timer), i.usesTimer T = false →
    exec i (timerTick T s) = mapNext (timerTick T) (exec i s)

/-! ### Control transfer (41_flow.md) -/

/-- 00EE takes PC from STACK[SP] and lowers SP; at SP = 0 it raises (41_flow.md, the entry of 00EE; the
fault and the slots are the spec's decision D1, log 10; its record in a next state is D10's and log 6's). -/
def Obligations.ReturnPopsTheReturnAddress : Prop :=
  Encodes 0xFFFF#16 0x00EE#16 (fun _ => .ret) ∧
  (∀ (s : State) (k : Fin 16), s.sp = k.succ →
    exec .ret s = .next { s with pc := s.stack[k], sp := k.castSucc }) ∧
  (∀ s : State, s.sp = 0 → s.fault = none →
    exec .ret s = .next { s with fault := some (.stackPointerInvalid 0) })

/-- 2NNN raises SP, saves PC, the address after the call, in the new STACK[SP], and jumps; at SP = 16 it
raises and changes nothing else (41_flow.md, the entry of 2NNN; the spec's decision D1, log 10; the
fault's record in a next state is D10's and log 6's). -/
def Obligations.CallPushesTheReturnAddress : Prop :=
  Encodes 0xF000#16 0x2000#16 (fun op => .call (fieldNNN op)) ∧
  (∀ (nnn : Addr12) (s : State) (k : Fin 16), s.sp = k.castSucc →
    exec (.call nnn) s =
      .next { s with sp := k.succ, stack := s.stack.set k s.pc, pc := nnn.setWidth 16 }) ∧
  (∀ (nnn : Addr12) (s : State), s.sp.val = 16 → s.fault = none →
    exec (.call nnn) s = .next { s with fault := some (.stackPointerInvalid 16) })

/-- CALL then RETURN restores PC and SP, whatever ran in between, nested calls included, if SP and the
call's own slot of STACK are as the call left them; and a call made while this one is active, in any state
deeper than its slot, leaves the slot alone (41_flow.md, the entries of 2NNN and 00EE, source §8; the
spec's decision D1). -/
def Obligations.CallThenReturnRestoresPcAndSp : Prop :=
  ∀ (nnn : Addr12) (s : State) (k : Fin 16), s.sp = k.castSucc →
    (∃ t, exec (.call nnn) s = .next t ∧
      ∀ u : State, u.sp = t.sp → u.stack[k] = t.stack[k] →
        exec .ret u = .next { u with pc := s.pc, sp := s.sp }) ∧
    (∀ (m : Addr12) (u w : State), u.sp.val > k.val → exec (.call m) u = .next w →
      w.stack[k] = u.stack[k])

/-- 1NNN puts NNN, widened with zeros, into PC; nothing else changes and the target is not checked: after a
jump to 0xFFF the next fetch raises at 4096. A cycle that jumps to its own address changes OPCODE and
DRAWFLAG at most, and a further one nothing at all but for the turns used up (41_flow.md, the entry of
1NNN). The turns are log 7's, the DRAWFLAG cleared the spec's decision D11 (log 14), the fault recorded in
a next state D10's and log 6's. -/
def Obligations.JumpSetsPc : Prop :=
  Encodes 0xF000#16 0x1000#16 (fun op => .jp (fieldNNN op)) ∧
  (∀ (nnn : Addr12) (s : State), exec (.jp nnn) s = .next { s with pc := nnn.setWidth 16 }) ∧
  (∀ (s : State) (rest : List Turn), s.fault = none → CpuTurn s rest →
    ∃ t, exec (.jp 0xFFF#12) s = .next t ∧ step t = .next { t with
      agenda := rest, drawFlag := false, fault := some (.addressOutOfRange 4096) }) ∧
  (∀ (nnn : Addr12) (s : State) (rest rest' : List Turn), Fetches s (encode (.jp nnn)) →
    CpuTurn s rest → s.pc.toNat = nnn.toNat →
    ∃ t, step s = .next t ∧
      t = { s with agenda := rest, opcode := encode (.jp nnn), drawFlag := false } ∧
      (CpuTurn t rest' → step t = .next { t with agenda := rest' }))

/-- BNNN puts NNN + V0 into PC, not reduced, with V0 whatever NNN's top nibble is (41_flow.md, the entry
of BNNN; that the sum fits in 16 bits the spec derives). -/
def Obligations.IndexedJumpAddsV0 : Prop :=
  Encodes 0xF000#16 0xB000#16 (fun op => .jpV0 (fieldNNN op)) ∧
  ∀ (nnn : Addr12) (s : State), ∃ t, exec (.jpV0 nnn) s = .next t ∧ t = { s with pc := t.pc } ∧
    t.pc.toNat = nnn.toNat + (s.v[0]).toNat

/-- 41_flow.md R105, R106: 3XNN adds 2 to PC when V[X] = NN and 4XNN when V[X] ≠ NN; otherwise, and
besides, nothing changes. -/
def Obligations.ImmediateSkips : Prop :=
  Encodes 0xF000#16 0x3000#16 (fun op => .seImm (fieldX op) (fieldNN op)) ∧
  Encodes 0xF000#16 0x4000#16 (fun op => .sneImm (fieldX op) (fieldNN op)) ∧
  ∀ (x : Reg) (nn : Byte) (s : State),
    exec (.seImm x nn) s = .next { s with pc := if s.v[x] = nn then s.pc + 2#16 else s.pc } ∧
    exec (.sneImm x nn) s = .next { s with pc := if s.v[x] ≠ nn then s.pc + 2#16 else s.pc }

/-- 41_flow.md R107, R108: 5XY0 adds 2 to PC when V[X] = V[Y] and 9XY0 when V[X] ≠ V[Y]; words of the two
families with another low nibble are invalid; with X = Y one always and the other never skips. -/
def Obligations.RegisterSkips : Prop :=
  Encodes 0xF00F#16 0x5000#16 (fun op => .seReg (fieldX op) (fieldY op)) ∧
  Encodes 0xF00F#16 0x9000#16 (fun op => .sneReg (fieldX op) (fieldY op)) ∧
  NeedsLowNibbleZero 0x5000#16 ∧ NeedsLowNibbleZero 0x9000#16 ∧
  ∀ (x y : Reg) (s : State),
    exec (.seReg x y) s = .next { s with pc := if s.v[x] = s.v[y] then s.pc + 2#16 else s.pc } ∧
    exec (.sneReg x y) s = .next { s with pc := if s.v[x] ≠ s.v[y] then s.pc + 2#16 else s.pc } ∧
    exec (.seReg x x) s = .next { s with pc := s.pc + 2#16 } ∧
    exec (.sneReg x x) s = .next s

/-! ### Register, arithmetic, logic, random (42_alu.md) -/

/-- 42_alu.md R110, R111: 6XNN loads NN; 7XNN adds it modulo 256. No flag: VF changes only when it is
V[X]. -/
def Obligations.ImmediateLoadAndAdd : Prop :=
  Encodes 0xF000#16 0x6000#16 (fun op => .ldImm (fieldX op) (fieldNN op)) ∧
  Encodes 0xF000#16 0x7000#16 (fun op => .addImm (fieldX op) (fieldNN op)) ∧
  ∀ (x : Reg) (nn : Byte) (s : State),
    exec (.ldImm x nn) s = .next { s with v := s.v.set x nn } ∧
    exec (.addImm x nn) s =
      .next { s with v := s.v.set x (BitVec.ofNat 8 (((s.v[x]).toNat + nn.toNat) % 256)) }

/-- 42_alu.md R112 to R115: 8XY0 copies V[Y]; 8XY1, 8XY2, 8XY3 combine V[X] and V[Y] bit by bit. No
flag: VF changes only when it is V[X]. -/
def Obligations.CopyAndLogic : Prop :=
  Encodes 0xF00F#16 0x8000#16 (fun op => .ldReg (fieldX op) (fieldY op)) ∧
  Encodes 0xF00F#16 0x8001#16 (fun op => .orReg (fieldX op) (fieldY op)) ∧
  Encodes 0xF00F#16 0x8002#16 (fun op => .andReg (fieldX op) (fieldY op)) ∧
  Encodes 0xF00F#16 0x8003#16 (fun op => .xorReg (fieldX op) (fieldY op)) ∧
  ∀ (x y : Reg) (s : State),
    exec (.ldReg x y) s = .next { s with v := s.v.set x s.v[y] } ∧
    (∃ b : Byte, exec (.orReg x y) s = .next { s with v := s.v.set x b } ∧
      ∀ k, b.getLsbD k = ((s.v[x]).getLsbD k || (s.v[y]).getLsbD k)) ∧
    (∃ b : Byte, exec (.andReg x y) s = .next { s with v := s.v.set x b } ∧
      ∀ k, b.getLsbD k = ((s.v[x]).getLsbD k && (s.v[y]).getLsbD k)) ∧
    (∃ b : Byte, exec (.xorReg x y) s = .next { s with v := s.v.set x b } ∧
      ∀ k, b.getLsbD k = ((s.v[x]).getLsbD k ^^ (s.v[y]).getLsbD k))

/-- 42_alu.md R116: 8XY4 writes VF 1 when the true sum exceeds 255, else 0, and then V[X] the sum modulo
256, both from the operands before the instruction; with X = 0xF the sum overwrites the flag. -/
def Obligations.AddReportsTheCarry : Prop :=
  Encodes 0xF00F#16 0x8004#16 (fun op => .addReg (fieldX op) (fieldY op)) ∧
  ∀ (x y : Reg) (s : State),
    let sum := (s.v[x]).toNat + (s.v[y]).toNat
    exec (.addReg x y) s =
      .next { s with v := (s.v.set 15 (if sum > 255 then 1#8 else 0#8)).set x (BitVec.ofNat 8 (sum % 256)) }

/-- 8XY5 and 8XY7 write VF 1 when minuend ≥ subtrahend, else 0, and then the difference modulo 256, from
the registers as the flag write left them (42_alu.md, the entries of 8XY5 and 8XY7; reading after the
flag write is the spec's decision D6, log 9). -/
def Obligations.SubtractionsReportNoBorrow : Prop :=
  Encodes 0xF00F#16 0x8005#16 (fun op => .sub (fieldX op) (fieldY op)) ∧
  Encodes 0xF00F#16 0x8007#16 (fun op => .subn (fieldX op) (fieldY op)) ∧
  ∀ (x y : Reg) (s : State),
    (let v := s.v.set 15 (if (s.v[y]).toNat ≤ (s.v[x]).toNat then 1#8 else 0#8)
     exec (.sub x y) s =
      .next { s with v := v.set x (BitVec.ofNat 8 (((v[x]).toNat + 256 - (v[y]).toNat) % 256)) }) ∧
    (let v := s.v.set 15 (if (s.v[x]).toNat ≤ (s.v[y]).toNat then 1#8 else 0#8)
     exec (.subn x y) s =
      .next { s with v := v.set x (BitVec.ofNat 8 (((v[y]).toNat + 256 - (v[x]).toNat) % 256)) })

/-- 8XY6 and 8XYE shift V[Y], not V[X], by one into V[X], after writing VF the bit shifted out
(42_alu.md, the entries of 8XY6 and 8XYE; reading V[Y] after the flag write is the spec's decision D6,
log 9). -/
def Obligations.ShiftsTakeVyAndReportTheBit : Prop :=
  Encodes 0xF00F#16 0x8006#16 (fun op => .shr (fieldX op) (fieldY op)) ∧
  Encodes 0xF00F#16 0x800E#16 (fun op => .shl (fieldX op) (fieldY op)) ∧
  ∀ (x y : Reg) (s : State),
    (let v := s.v.set 15 (BitVec.ofNat 8 ((s.v[y]).toNat % 2))
     exec (.shr x y) s = .next { s with v := v.set x (BitVec.ofNat 8 ((v[y]).toNat / 2)) }) ∧
    (let v := s.v.set 15 (BitVec.ofNat 8 ((s.v[y]).toNat / 128))
     exec (.shl x y) s = .next { s with v := v.set x (BitVec.ofNat 8 ((v[y]).toNat * 2 % 256)) })

/-- The table of the cases with X = 0xF or Y = 0xF, cell by cell (42_alu.md, section on VF as operand; the
spec's decision D6, log 9). `f` is 1 or 0 for the comparison each row names. -/
def Obligations.FlagRegisterAsOperand : Prop :=
  ∀ (s : State) (z : Reg), z ≠ 15 →
    let vf := (s.v[15]).toNat
    let vz := (s.v[z]).toNat
    let ge (a b : Nat) : Nat := if b ≤ a then 1 else 0
    let b8 (n : Nat) : Byte := BitVec.ofNat 8 (n % 256)
    (exec (.addReg 15 z) s = .next { s with v := s.v.set 15 (b8 (vf + vz)) } ∧
     exec (.addReg z 15) s =
      .next { s with v := (s.v.set 15 (b8 (ge (vz + vf) 256))).set z (b8 (vz + vf)) } ∧
     exec (.addReg 15 15) s = .next { s with v := s.v.set 15 (b8 (2 * vf)) }) ∧
    (exec (.sub 15 z) s = .next { s with v := s.v.set 15 (b8 (ge vf vz + 256 - vz)) } ∧
     exec (.sub z 15) s =
      .next { s with v := (s.v.set 15 (b8 (ge vz vf))).set z (b8 (vz + 256 - ge vz vf)) } ∧
     exec (.sub 15 15) s = .next { s with v := s.v.set 15 0#8 }) ∧
    (exec (.shr 15 z) s = .next { s with v := s.v.set 15 (b8 (vz / 2)) } ∧
     exec (.shr z 15) s = .next { s with v := (s.v.set 15 (b8 (vf % 2))).set z 0#8 } ∧
     exec (.shr 15 15) s = .next { s with v := s.v.set 15 0#8 }) ∧
    (exec (.subn 15 z) s = .next { s with v := s.v.set 15 (b8 (vz + 256 - ge vz vf)) } ∧
     exec (.subn z 15) s =
      .next { s with v := (s.v.set 15 (b8 (ge vf vz))).set z (b8 (ge vf vz + 256 - vz)) } ∧
     exec (.subn 15 15) s = .next { s with v := s.v.set 15 0#8 }) ∧
    (exec (.shl 15 z) s = .next { s with v := s.v.set 15 (b8 (vz * 2)) } ∧
     exec (.shl z 15) s = .next { s with v := (s.v.set 15 (b8 (vf / 128))).set z (b8 (vf / 128 * 2)) } ∧
     exec (.shl 15 15) s = .next { s with v := s.v.set 15 (b8 (vf / 128 * 2)) })

/-- CXNN puts the drawn byte ANDed with NN into V[X], uses up one draw, and changes nothing else; the
result has no bit that NN lacks and is the draw itself for NN = 0xFF (42_alu.md, the entry of CXNN; the
free draw is the spec's decision D12, log 8: nothing is said of its value). -/
def Obligations.RandomByteIsMasked : Prop :=
  Encodes 0xF000#16 0xC000#16 (fun op => .rnd (fieldX op) (fieldNN op)) ∧
  ∀ (x : Reg) (s : State), ∃ r : Byte, ∀ nn : Byte, ∃ b : Byte,
    exec (.rnd x nn) s = .next { s with v := s.v.set x b, draws := s.draws + 1 } ∧
    (∀ k, b.getLsbD k = (r.getLsbD k && nn.getLsbD k)) ∧
    (nn = 0x00#8 → b = 0x00#8) ∧ (nn = 0xFF#8 → b = r)

/-! ### Index register and memory (43_index_memory.md) -/

/-- 43_index_memory.md R130, R131, R132: ANNN loads NNN, FX1E adds V[X] modulo 65536, FX29 loads
(V[X] AND 0xF) × 5; I alone changes and nothing faults. -/
def Obligations.IndexRegisterLoads : Prop :=
  Encodes 0xF000#16 0xA000#16 (fun op => .ldI (fieldNNN op)) ∧
  Encodes 0xF0FF#16 0xF01E#16 (fun op => .addI (fieldX op)) ∧
  Encodes 0xF0FF#16 0xF029#16 (fun op => .ldF (fieldX op)) ∧
  (∀ (nnn : Addr12) (s : State), exec (.ldI nnn) s = .next { s with i := nnn.setWidth 16 }) ∧
  ∀ (x : Reg) (s : State),
    exec (.addI x) s =
      .next { s with i := BitVec.ofNat 16 ((s.i.toNat + (s.v[x]).toNat) % 65536) } ∧
    exec (.ldF x) s = .next { s with i := BitVec.ofNat 16 (((s.v[x]).toNat % 16) * 5) }

/-- FX33 stores hundreds, tens and ones of V[X] at I, I + 1, I + 2 and changes no other byte and nothing
else; past 4095 it raises at the first bad address with the digits before it stored (43_index_memory.md,
the entry of FX33; the state at the fault is the spec's decision D10, log 13). -/
def Obligations.DecimalStoreWritesThreeDigits : Prop :=
  Encodes 0xF0FF#16 0xF033#16 (fun op => .ldB (fieldX op)) ∧
  ∀ (x : Reg) (s : State),
    let n := (s.v[x]).toNat
    let digit (k : Nat) : Nat := if k = 0 then n / 100 else if k = 1 then n / 10 % 10 else n % 10
    ∃ t, exec (.ldB x) s = .next t ∧
      (∀ k, k < 3 → s.i.toNat + k ≤ 4095 → (t.mem.read (s.i.toNat + k)).toNat = digit k) ∧
      (∀ a, ¬ (s.i.toNat ≤ a ∧ a < s.i.toNat + 3 ∧ a ≤ 4095) → t.mem.read a = s.mem.read a) ∧
      (s.i.toNat + 2 ≤ 4095 → t = { s with mem := t.mem }) ∧
      (s.i.toNat + 2 > 4095 → s.fault = none →
        t = { s with mem := t.mem, fault := some (.addressOutOfRange (max s.i.toNat 4096)) })

/-- FX55 stores V[0] to V[X] at I to I + X, changes no other byte, and advances I by X + 1; past 4095 it
raises at the first bad address, the stores before it made and I not advanced (43_index_memory.md, the
entry of FX55; the state at the fault is the spec's decision D10, log 13). -/
def Obligations.RegisterStoreWritesV0ToVx : Prop :=
  Encodes 0xF0FF#16 0xF055#16 (fun op => .stRegs (fieldX op)) ∧
  ∀ (x : Reg) (s : State),
    ∃ t, exec (.stRegs x) s = .next t ∧
      (∀ k : Reg, k ≤ x → s.i.toNat + k.val ≤ 4095 → t.mem.read (s.i.toNat + k.val) = s.v[k]) ∧
      (∀ a, ¬ (s.i.toNat ≤ a ∧ a < s.i.toNat + (x.val + 1) ∧ a ≤ 4095) →
        t.mem.read a = s.mem.read a) ∧
      (s.i.toNat + x.val ≤ 4095 →
        t = { s with mem := t.mem, i := BitVec.ofNat 16 (s.i.toNat + x.val + 1) }) ∧
      (s.i.toNat + x.val > 4095 → s.fault = none →
        t = { s with mem := t.mem, fault := some (.addressOutOfRange (max s.i.toNat 4096)) })

/-- FX65 loads V[0] to V[X] from I to I + X, leaves the registers above VX and all of memory, and advances
I by X + 1; past 4095 it raises at the first bad address, the loads before it made and I not advanced
(43_index_memory.md, the entry of FX65; the state at the fault is the spec's decision D10, log 13). -/
def Obligations.RegisterLoadReadsV0ToVx : Prop :=
  Encodes 0xF0FF#16 0xF065#16 (fun op => .ldRegs (fieldX op)) ∧
  ∀ (x : Reg) (s : State),
    ∃ t, exec (.ldRegs x) s = .next t ∧
      (∀ k : Reg, t.v[k] =
        if k ≤ x ∧ s.i.toNat + k.val ≤ 4095 then s.mem.read (s.i.toNat + k.val) else s.v[k]) ∧
      (s.i.toNat + x.val ≤ 4095 →
        t = { s with v := t.v, i := BitVec.ofNat 16 (s.i.toNat + x.val + 1) }) ∧
      (s.i.toNat + x.val > 4095 → s.fault = none →
        t = { s with v := t.v, fault := some (.addressOutOfRange (max s.i.toNat 4096)) })

/-! ### Display (44_display.md) -/

/-- 00E0 turns all 2048 pixels dark and sets DRAWFLAG, and changes nothing else (44_display.md, the entry
of 00E0; DRAWFLAG is the spec's decision D11, log 14). -/
def Obligations.ClearScreenBlanksEveryPixel : Prop :=
  Encodes 0xFFFF#16 0x00E0#16 (fun _ => .cls) ∧
  ∀ s : State, ∃ t, exec .cls s = .next t ∧ (∀ x y, pixel t.fb x y = false) ∧
    t = { s with fb := t.fb, drawFlag := true }

/-- DXYN, when its N sprite bytes are in memory (or N = 0): every pixel of the screen is XORed with the
sprite bit that falls on it, wrapped at both edges; VF becomes 1 when some pixel lit before is dark after,
else 0; DRAWFLAG is set; nothing else changes (44_display.md, the entry of DXYN; bit 7 leftmost is the
spec's decision D8, log 11, the operand order D7, DRAWFLAG D11). -/
def Obligations.DrawXorsTheSpriteOntoTheScreen : Prop :=
  Encodes 0xF000#16 0xD000#16 (fun op => .drw (fieldX op) (fieldY op) (fieldN op)) ∧
  ∀ (x y : Reg) (n : Fin 16) (s : State), n.val = 0 ∨ s.i.toNat + n.val ≤ 4096 →
    ∃ (t : State) (coll : Bool), exec (.drw x y n) s = .next t ∧
      (∀ px py, pixel t.fb px py =
        (pixel s.fb px py ^^ spriteAt s.mem s.i.toNat s.v[x] s.v[y] n.val px py)) ∧
      (coll = true ↔ ∃ px py, pixel s.fb px py = true ∧ pixel t.fb px py = false) ∧
      t = { s with fb := t.fb, v := s.v.set 15 (if coll then 1#8 else 0#8), drawFlag := true }

/-- DXYN that runs past memory: it raises at the first bad address, the sprite rows before it are drawn,
and VF and DRAWFLAG are not written (44_display.md, the entry of DXYN; the spec's decision D10, log 13). -/
def Obligations.DrawPastMemoryStopsAtTheBadRow : Prop :=
  ∀ (x y : Reg) (n : Fin 16) (s : State), n.val ≥ 1 → s.i.toNat + n.val > 4096 → s.fault = none →
    ∃ t, exec (.drw x y n) s = .next t ∧
      (∀ px py, pixel t.fb px py =
        (pixel s.fb px py ^^ spriteAt s.mem s.i.toNat s.v[x] s.v[y] (4096 - s.i.toNat) px py)) ∧
      t = { s with fb := t.fb, fault := some (.addressOutOfRange (max s.i.toNat 4096)) }

/-- Drawing the same sprite at the same place again restores the screen, and reports a collision exactly
when the first draw lit a pixel (44_display.md, corner case (c) of DXYN). -/
def Obligations.DrawingTwiceRestoresTheScreen : Prop :=
  ∀ (x y : Reg) (n : Fin 16) (s t u : State), n.val = 0 ∨ s.i.toNat + n.val ≤ 4096 →
    exec (.drw x y n) s = .next t → u.fb = t.fb → u.mem = s.mem → u.i = s.i →
    u.v[x] = s.v[x] → u.v[y] = s.v[y] →
    ∃ w, exec (.drw x y n) u = .next w ∧ w.fb = s.fb ∧
      (w.v[15] = 1#8 ↔ ∃ px py, pixel s.fb px py = false ∧ pixel t.fb px py = true)

/-! ### Keypad and timers (45_keypad_timer.md) -/

/-- EX9E skips when the key numbered by all of V[X] exists and is down, EXA1 when not; so in every state
exactly one of them skips (45_keypad_timer.md, the entries of EX9E and EXA1; the full 8-bit key number is
the spec's decision D17, log 12). -/
def Obligations.KeySkips : Prop :=
  Encodes 0xF0FF#16 0xE09E#16 (fun op => .skp (fieldX op)) ∧
  Encodes 0xF0FF#16 0xE0A1#16 (fun op => .sknp (fieldX op)) ∧
  ∀ (x : Reg) (s : State),
    (∀ k : Fin 16, (s.v[x]).toNat = k.val →
      exec (.skp x) s = .next { s with pc := if s.key[k] then s.pc + 2#16 else s.pc } ∧
      exec (.sknp x) s = .next { s with pc := if s.key[k] then s.pc else s.pc + 2#16 }) ∧
    ((s.v[x]).toNat ≥ 16 →
      exec (.skp x) s = .next s ∧ exec (.sknp x) s = .next { s with pc := s.pc + 2#16 })

/-- With ANYKEY set FX0A puts LASTKEY into V[X]; otherwise it takes 2 from PC so that the same word is
fetched again, and such a waiting cycle repeated changes nothing at all but for the turn used up
(45_keypad_timer.md, the entry of FX0A; the turn is log 7's, the DRAWFLAG cleared the spec's decision D11,
log 14). -/
def Obligations.KeyWaitSpinsUntilAnyKey : Prop :=
  Encodes 0xF0FF#16 0xF00A#16 (fun op => .ldVxK (fieldX op)) ∧
  (∀ (x : Reg) (s : State),
    (s.anyKey = true →
      exec (.ldVxK x) s = .next { s with v := s.v.set x (BitVec.ofNat 8 s.lastKey.val) }) ∧
    (s.anyKey = false → exec (.ldVxK x) s = .next { s with pc := s.pc - 2#16 })) ∧
  (∀ (x : Reg) (s : State) (rest : List Turn), Fetches s (encode (.ldVxK x)) → CpuTurn s rest →
    s.anyKey = false →
    step s = .next { s with agenda := rest, opcode := encode (.ldVxK x), drawFlag := false } ∧
    (s.opcode = encode (.ldVxK x) → s.drawFlag = false → step s = .next { s with agenda := rest }))

/-- 45_keypad_timer.md R153, R154: FX07 reads DT into V[X] as the ticks before it left it, FX15 writes
V[X] into DT, and the first tick after that write takes it to V[X] − 1, or leaves 0; nothing else
changes. -/
def Obligations.DelayTimerInstructions : Prop :=
  Encodes 0xF0FF#16 0xF007#16 (fun op => .ldVxDt (fieldX op)) ∧
  Encodes 0xF0FF#16 0xF015#16 (fun op => .ldDtVx (fieldX op)) ∧
  ∀ (x : Reg) (s : State),
    exec (.ldVxDt x) s = .next { s with v := s.v.set x s.dt } ∧
    exec (.ldDtVx x) s = .next { s with dt := s.v[x] } ∧
    ((timerTick .delay { s with dt := s.v[x] }).dt).toNat = (s.v[x]).toNat - 1

/-- 45_keypad_timer.md R155: FX18 writes V[X] into ST and nothing else; the buzzer output is then on
exactly when V[X] is not 0; and no instruction reads ST back: what any instruction does but to ST is the
same whatever ST holds. -/
def Obligations.SoundTimerInstruction : Prop :=
  Encodes 0xF0FF#16 0xF018#16 (fun op => .ldStVx (fieldX op)) ∧
  (∀ (x : Reg) (s : State),
    exec (.ldStVx x) s = .next { s with st := s.v[x] } ∧
    buzz { s with st := s.v[x] } = (s.v[x] != 0#8)) ∧
  ∀ (i : Instr) (s : State) (b c : Byte),
    mapNext (fun t => { t with st := c }) (exec i { s with st := b }) =
      mapNext (fun t => { t with st := c }) (exec i s)

/-! ### Events and host operations (60_exceptions.md, 70_reset_and_hazards.md) -/

/-- A tick lowers its own timer by one, stops at zero, and changes nothing else but the agenda, whether or
not a fault has stopped the CPU (60_exceptions.md section 3; the free schedule is the spec's decision
D2, the agenda log 7's). -/
def Obligations.TickCountsItsTimerDown : Prop :=
  ∀ (s : State) (rest : List Turn),
    (s.agenda = .event (.tick .delay) :: rest →
      step s = .next { s with agenda := rest, dt := BitVec.ofNat 8 (s.dt.toNat - 1) }) ∧
    (s.agenda = .event (.tick .sound) :: rest →
      step s = .next { s with agenda := rest, st := BitVec.ofNat 8 (s.st.toNat - 1) })

/-- 60_exceptions.md R176, R177, R178: a press sets KEY[k], ANYKEY and LASTKEY, a release clears KEY[k]
and ANYKEY whichever key it is, the query returns KEY[k]; all three fail with InvalidKey from 16 on. -/
def Obligations.KeypadOperations : Prop :=
  ∀ (k : Nat) (s : State),
    (∀ h : k < 16,
      keyPress k s = .ok { s with key := s.key.set k true, anyKey := true, lastKey := ⟨k, h⟩ } ∧
      keyRelease k s = .ok { s with key := s.key.set k false, anyKey := false } ∧
      keyIsPressed k s = .ok s.key[k]) ∧
    (k ≥ 16 → keyPress k s = .error (.invalidKey k) ∧ keyRelease k s = .error (.invalidKey k) ∧
      keyIsPressed k s = .error (.invalidKey k))

/-- A key event on the agenda is a step of its own: a good key's press or release happens, a bad one is
recorded as the fault (60_exceptions.md sections 4 and 5; delivery between cycles is the spec's decision
D13, the agenda and the record of a host error log 6's and log 7's). -/
def Obligations.KeyEventsAreStepsOfTheirOwn : Prop :=
  ∀ (s : State) (k : Nat) (rest : List Turn),
    (∀ h : k < 16, s.agenda = .event (.keyPress k) :: rest →
      step s = .next { s with
        agenda := rest, key := s.key.set k true, anyKey := true, lastKey := ⟨k, h⟩ }) ∧
    (∀ _h : k < 16, s.agenda = .event (.keyRelease k) :: rest →
      step s = .next { s with agenda := rest, key := s.key.set k false, anyKey := false }) ∧
    (k ≥ 16 → s.fault = none →
      s.agenda = .event (.keyPress k) :: rest ∨ s.agenda = .event (.keyRelease k) :: rest →
      step s = .next { s with agenda := rest, fault := some (.invalidKey k) })

/-- 60_exceptions.md R173, R174, R175: the framebuffer's query, set and draw fail off the 64×32 grid with
the coordinates; on it the query returns the pixel, the set writes that pixel alone, and the draw XORs
the bit in and returns 1 exactly when the pixel was lit and the bit is 1. -/
def Obligations.FramebufferOperations : Prop :=
  ∀ (s : State) (b : Bool),
    (∀ (x : Fin 64) (y : Fin 32),
      gfxGet x.val y.val s = .ok (pixel s.fb x y) ∧
      (∃ t, gfxSet x.val y.val b s = .ok t ∧ t = { s with fb := t.fb } ∧ pixel t.fb x y = b ∧
        ∀ x' y', ¬ (x' = x ∧ y' = y) → pixel t.fb x' y' = pixel s.fb x' y') ∧
      (∃ t, gfxDraw x.val y.val b s = .ok (pixel s.fb x y && b, t) ∧ t = { s with fb := t.fb } ∧
        pixel t.fb x y = (pixel s.fb x y ^^ b) ∧
        ∀ x' y', ¬ (x' = x ∧ y' = y) → pixel t.fb x' y' = pixel s.fb x' y')) ∧
    (∀ x y : Nat, x ≥ 64 ∨ y ≥ 32 →
      gfxGet x y s = .error (.coordinateOutOfRange x y) ∧
      gfxSet x y b s = .error (.coordinateOutOfRange x y) ∧
      gfxDraw x y b s = .error (.coordinateOutOfRange x y))

/-- The host's register accessors fail with RegisterIndexInvalid from 16 on and otherwise read back what
was written, leaving the other registers (60_exceptions.md section 4; the reach of host access is the
spec's decision D16). -/
def Obligations.RegisterAccessors : Prop :=
  ∀ (n : Nat) (b : Byte) (s : State),
    (n < 16 → ∃ t, regSet n b s = .ok t ∧ t = { s with v := t.v } ∧ regGet n t = .ok b ∧
      ∀ m, m ≠ n → regGet m t = regGet m s) ∧
    (n ≥ 16 → regGet n s = .error (.registerIndexInvalid n) ∧
      regSet n b s = .error (.registerIndexInvalid n))

/-- From a quiescent self-jump every cycle leaves a quiescent self-jump, with everything but OPCODE and
DRAWFLAG as it was (and the turn used up), and so does every event but one that faults
(70_reset_and_hazards.md section 3; the spec's decision D15; the turn and the events are log 7's, the
queries among them log 6's, the DRAWFLAG cleared the spec's decision D11, log 14). -/
def Obligations.SelfJumpIsQuiescent : Prop :=
  ∀ s : State, Quiescent s →
    (∀ rest, CpuTurn s rest → ∃ t, step s = .next t ∧ Quiescent t ∧
      t = { s with agenda := rest, opcode := t.opcode, drawFlag := false }) ∧
    (∀ e : Event, hostFault e.call = none → ∃ t, deliver e s = .next t ∧ Quiescent t)

/-- Every operation called from outside a cycle completes or raises exactly as the table of kinds says
(60_exceptions.md section 1); what it raises is reported to the caller and recorded like any fault, and
the CPU then takes no further cycle. A host query on the agenda is a step that changes nothing unless it
raises (60_exceptions.md sections 4 and 5, 20_memory.md section 2; the record is the spec's decision D10,
the query as a step log 6's and log 7's). -/
def Obligations.HostCallsRecordTheirFaults : Prop :=
  (∀ (c : HostCall) (s : State), s.fault = none →
    (hostFault c = none → ∃ r t, hostCall c s = (r, t) ∧ t.fault = none ∧ ∀ f, r ≠ .failed f) ∧
    (∀ f, hostFault c = some f →
      hostCall c s = (.failed f, { s with fault := some f }) ∧
      ∀ rest, CpuTurn s rest → step { s with fault := some f } = .fault f)) ∧
  (∀ (q : Query) (s : State) (rest : List Turn), s.agenda = .event (.query q) :: rest →
    s.fault = none → step s = .next { s with agenda := rest, fault := hostFault q.call }) ∧
  (∀ (a : Nat) (b : Byte) (s : State), a ≤ 4095 →
    hostCall (.memGet a) s = (.byte (s.mem.read a), s) ∧
    ∃ t, memWrite a b s = .ok t ∧ hostCall (.memSet a b) s = (.done, t))

/-- Reset with a font and an image of at most 3584 bytes leaves PC = 0x200, SP = 0, no fault, every
register and timer zero, a blank screen, all keys up, the font at 0x000, the image at 0x200 and 0x00 in
every other cell; a longer image is refused (10_state.md section 10, 70_reset_and_hazards.md sections 1
and 2; the zeros are the spec's decisions D4 and D5, log 4 and 5, the refusal log 16's). -/
def Obligations.BootLeavesTheResetState : Prop :=
  ∀ f rom : List Byte, fontOk f = true →
    (rom.length ≤ 3584 → ∃ t, boot f rom = .next t ∧
      t.pc = 0x200#16 ∧ t.sp.val = 0 ∧ t.fault = none ∧ t.i = 0#16 ∧ t.dt = 0#8 ∧ t.st = 0#8 ∧
      t.drawFlag = false ∧ t.anyKey = false ∧ (∀ k : Reg, t.v[k] = 0#8) ∧
      (∀ k : Fin 16, t.key[k] = false) ∧ (∀ x y, pixel t.fb x y = false) ∧
      (∀ j, j < 80 → t.mem.read j = f.getD j 0#8) ∧
      (∀ j, j < rom.length → t.mem.read (0x200 + j) = rom.getD j 0#8) ∧
      (∀ a, 80 ≤ a → a < 4096 → ¬ (0x200 ≤ a ∧ a < 0x200 + rom.length) → t.mem.read a = 0#8)) ∧
    (rom.length > 3584 → boot f rom = .refused (.romTooLong rom.length))
end

