-- ==== Sys2Proof/Laws/Decode.lean ====
section
/-!
SUPPORT. The fields of a word as numbers, the fields of the three word forms, and the byte order laws.
-/

namespace Sys2Proof

/-! ### Fields as numbers -/

theorem family_eq_iff (op : Word) (t : BitVec 4) : family op = t ↔ op.toNat / 0x1000 = t.toNat := by
  rw [← BitVec.toNat_inj]
  have := op.isLt
  simp only [family, BitVec.extractLsb'_toNat, Nat.shiftRight_eq_div_pow]
  omega

theorem lowNibble_eq_iff (op : Word) (t : BitVec 4) : lowNibble op = t ↔ op.toNat % 0x10 = t.toNat := by
  rw [← BitVec.toNat_inj]
  simp [lowNibble, BitVec.extractLsb'_toNat]

theorem lowByte_eq_iff (op : Word) (b : Byte) : lowByte op = b ↔ op.toNat % 0x100 = b.toNat := by
  rw [← BitVec.toNat_inj]
  simp [lowByte, BitVec.extractLsb'_toNat]

theorem fieldX_val (op : Word) : (fieldX op).val = op.toNat / 0x100 % 0x10 := by
  show (op.extractLsb' 8 4).toNat = _
  simp [BitVec.extractLsb'_toNat, Nat.shiftRight_eq_div_pow]

theorem fieldY_val (op : Word) : (fieldY op).val = op.toNat / 0x10 % 0x10 := by
  show (op.extractLsb' 4 4).toNat = _
  simp [BitVec.extractLsb'_toNat, Nat.shiftRight_eq_div_pow]

theorem fieldN_val (op : Word) : (fieldN op).val = op.toNat % 0x10 := by
  show (op.extractLsb' 0 4).toNat = _
  simp [BitVec.extractLsb'_toNat]

theorem fieldNN_toNat (op : Word) : (fieldNN op).toNat = op.toNat % 0x100 := by
  simp [fieldNN, BitVec.extractLsb'_toNat]

theorem fieldNNN_toNat (op : Word) : (fieldNNN op).toNat = op.toNat % 0x1000 := by
  simp [fieldNNN, BitVec.extractLsb'_toNat]

/-! ### The word forms as numbers -/

theorem formNNN_toNat {t : Nat} (ht : t < 16) (nnn : Addr12) :
    (formNNN t nnn).toNat = t * 0x1000 + nnn.toNat := by
  have := nnn.isLt
  simp only [formNNN, BitVec.toNat_ofNat]
  omega

theorem formXNN_toNat {t : Nat} (ht : t < 16) (x : Reg) (nn : Byte) :
    (formXNN t x nn).toNat = t * 0x1000 + x.val * 0x100 + nn.toNat := by
  have := nn.isLt
  have := x.isLt
  simp only [formXNN, BitVec.toNat_ofNat]
  omega

theorem formXYN_toNat {t : Nat} (ht : t < 16) (x y n : Fin 16) :
    (formXYN t x y n).toNat = t * 0x1000 + x.val * 0x100 + y.val * 0x10 + n.val := by
  have := x.isLt
  have := y.isLt
  have := n.isLt
  simp only [formXYN, BitVec.toNat_ofNat]
  omega

/-! ### The fields of the word forms -/

@[simp] theorem family_formNNN {t : Nat} (ht : t < 16) (nnn : Addr12) :
    family (formNNN t nnn) = BitVec.ofNat 4 t := by
  have := nnn.isLt
  rw [family_eq_iff, formNNN_toNat ht, BitVec.toNat_ofNat]
  omega

@[simp] theorem fieldNNN_formNNN {t : Nat} (ht : t < 16) (nnn : Addr12) :
    fieldNNN (formNNN t nnn) = nnn := by
  have := nnn.isLt
  apply BitVec.eq_of_toNat_eq
  rw [fieldNNN_toNat, formNNN_toNat ht]
  omega

@[simp] theorem family_formXNN {t : Nat} (ht : t < 16) (x : Reg) (nn : Byte) :
    family (formXNN t x nn) = BitVec.ofNat 4 t := by
  have := nn.isLt
  have := x.isLt
  rw [family_eq_iff, formXNN_toNat ht, BitVec.toNat_ofNat]
  omega

@[simp] theorem fieldX_formXNN {t : Nat} (ht : t < 16) (x : Reg) (nn : Byte) :
    fieldX (formXNN t x nn) = x := by
  have := nn.isLt
  have := x.isLt
  apply Fin.ext
  rw [fieldX_val, formXNN_toNat ht]
  omega

@[simp] theorem fieldNN_formXNN {t : Nat} (ht : t < 16) (x : Reg) (nn : Byte) :
    fieldNN (formXNN t x nn) = nn := by
  have := nn.isLt
  apply BitVec.eq_of_toNat_eq
  rw [fieldNN_toNat, formXNN_toNat ht]
  omega

@[simp] theorem lowByte_formXNN {t : Nat} (ht : t < 16) (x : Reg) (nn : Byte) :
    lowByte (formXNN t x nn) = nn := fieldNN_formXNN ht x nn

@[simp] theorem family_formXYN {t : Nat} (ht : t < 16) (x y n : Fin 16) :
    family (formXYN t x y n) = BitVec.ofNat 4 t := by
  have := x.isLt
  have := y.isLt
  have := n.isLt
  rw [family_eq_iff, formXYN_toNat ht, BitVec.toNat_ofNat]
  omega

@[simp] theorem fieldX_formXYN {t : Nat} (ht : t < 16) (x y n : Fin 16) :
    fieldX (formXYN t x y n) = x := by
  have := x.isLt
  have := y.isLt
  have := n.isLt
  apply Fin.ext
  rw [fieldX_val, formXYN_toNat ht]
  omega

@[simp] theorem fieldY_formXYN {t : Nat} (ht : t < 16) (x y n : Fin 16) :
    fieldY (formXYN t x y n) = y := by
  have := x.isLt
  have := y.isLt
  have := n.isLt
  apply Fin.ext
  rw [fieldY_val, formXYN_toNat ht]
  omega

@[simp] theorem fieldN_formXYN {t : Nat} (ht : t < 16) (x y n : Fin 16) :
    fieldN (formXYN t x y n) = n := by
  have := n.isLt
  apply Fin.ext
  rw [fieldN_val, formXYN_toNat ht]
  omega

@[simp] theorem lowNibble_formXYN {t : Nat} (ht : t < 16) (x y n : Fin 16) :
    lowNibble (formXYN t x y n) = BitVec.ofNat 4 n.val := by
  have := n.isLt
  rw [lowNibble_eq_iff, formXYN_toNat ht, BitVec.toNat_ofNat]
  omega

/-! ### Byte order -/

theorem beWord_toNat (hi lo : Byte) : (beWord hi lo).toNat = hi.toNat * 0x100 + lo.toNat := by
  have hh := hi.isLt
  have hl := lo.isLt
  have h : hi.setWidth 16 <<< 8 &&& lo.setWidth 16 = 0#16 := by
    ext k hk
    simp only [BitVec.getElem_and, BitVec.getElem_shiftLeft, BitVec.getElem_setWidth,
      BitVec.getElem_zero]
    by_cases h8 : k < 8
    · simp [h8]
    · simp [BitVec.getLsbD_of_ge lo k (by omega)]
  rw [beWord, ← BitVec.add_eq_or_of_and_eq_zero _ _ h]
  simp only [BitVec.toNat_add, BitVec.toNat_shiftLeft, BitVec.toNat_setWidth, Nat.shiftLeft_eq]
  omega

theorem hiByte_toNat (w : Word) : (hiByte w).toNat = w.toNat / 0x100 := by
  have := w.isLt
  simp only [hiByte, BitVec.extractLsb'_toNat, Nat.shiftRight_eq_div_pow]
  omega

theorem loByte_toNat (w : Word) : (loByte w).toNat = w.toNat % 0x100 := by
  simp [loByte, BitVec.extractLsb'_toNat]

@[simp] theorem beWord_hiByte_loByte (w : Word) : beWord (hiByte w) (loByte w) = w := by
  apply BitVec.eq_of_toNat_eq
  rw [beWord_toNat, hiByte_toNat, loByte_toNat]
  omega

@[simp] theorem hiByte_beWord (hi lo : Byte) : hiByte (beWord hi lo) = hi := by
  have := lo.isLt
  apply BitVec.eq_of_toNat_eq
  rw [hiByte_toNat, beWord_toNat]
  omega

@[simp] theorem loByte_beWord (hi lo : Byte) : loByte (beWord hi lo) = lo := by
  have := lo.isLt
  apply BitVec.eq_of_toNat_eq
  rw [loByte_toNat, beWord_toNat]
  omega

/-! ### Masks: `op AND mask = match` of 30_encoding.md R75 as equations on numbers -/

theorem and_top_toNat (op : Word) : (op &&& 0xF000#16).toNat = op.toNat / 0x1000 * 0x1000 := by
  have h : op &&& 0xF000#16 = (op >>> 12) <<< 12 := by
    ext k hk
    simp only [BitVec.getElem_and, BitVec.getElem_shiftLeft]
    by_cases h12 : k < 12
    · have : ∀ j < 12, (0xF000#16).getLsbD j = false := by decide
      simp [h12, ← BitVec.getLsbD_eq_getElem, this k h12]
    · have : ∀ j < 16, ¬ j < 12 → (0xF000#16).getLsbD j = true := by decide
      simp [h12, ← BitVec.getLsbD_eq_getElem, this k hk h12]
      congr 1
      omega
  have := op.isLt
  rw [h]
  simp only [BitVec.toNat_shiftLeft, BitVec.toNat_ushiftRight, Nat.shiftLeft_eq,
    Nat.shiftRight_eq_div_pow]
  omega

theorem and_low_toNat (op : Word) (n : Nat) (hn : n ≤ 16) :
    (op &&& BitVec.ofNat 16 (2 ^ n - 1)).toNat = op.toNat % 2 ^ n := by
  have : 2 ^ n ≤ 2 ^ 16 := Nat.pow_le_pow_right (by decide) hn
  have h1 : 0 < 2 ^ n := Nat.pos_of_ne_zero (by positivity)
  rw [BitVec.toNat_and, BitVec.toNat_ofNat, Nat.mod_eq_of_lt (by omega),
    Nat.and_two_pow_sub_one_eq_mod]

theorem and_low4_toNat (op : Word) : (op &&& 0x000F#16).toNat = op.toNat % 0x10 :=
  and_low_toNat op 4 (by decide)

theorem and_low8_toNat (op : Word) : (op &&& 0x00FF#16).toNat = op.toNat % 0x100 :=
  and_low_toNat op 8 (by decide)

theorem and_low12_toNat (op : Word) : (op &&& 0x0FFF#16).toNat = op.toNat % 0x1000 :=
  and_low_toNat op 12 (by decide)

theorem and_top_add_toNat (op m : Word) (h : 0xF000#16 &&& m = 0#16)
    (hm : (op &&& m).toNat < 0x1000) :
    (op &&& (0xF000#16 ||| m)).toNat = op.toNat / 0x1000 * 0x1000 + (op &&& m).toNat := by
  have h0 : (op &&& 0xF000#16) &&& (op &&& m) = 0#16 := by
    calc (op &&& 0xF000#16) &&& (op &&& m) = (op &&& op) &&& (0xF000#16 &&& m) := by ac_rfl
      _ = 0#16 := by rw [h, BitVec.and_zero]
  have ht := and_top_toNat op
  have := op.isLt
  rw [BitVec.and_or_distrib_left, ← BitVec.add_eq_or_of_and_eq_zero _ _ h0, BitVec.toNat_add, ht]
  omega

theorem and_F00F_toNat (op : Word) :
    (op &&& 0xF00F#16).toNat = op.toNat / 0x1000 * 0x1000 + op.toNat % 0x10 := by
  rw [← and_low4_toNat]
  exact and_top_add_toNat op 0x000F#16 (by decide) (by rw [and_low4_toNat]; omega)

theorem and_F0FF_toNat (op : Word) :
    (op &&& 0xF0FF#16).toNat = op.toNat / 0x1000 * 0x1000 + op.toNat % 0x100 := by
  rw [← and_low8_toNat]
  exact and_top_add_toNat op 0x00FF#16 (by decide) (by rw [and_low8_toNat]; omega)

end Sys2Proof
end

