-- ==== Sys2Proof/Laws/State.lean ====
section
/-!
SUPPORT. One lemma per field per state update, so that no later proof unfolds a record update.
-/

namespace Sys2Proof.Machine

/-! ### `setV` -/

@[simp] theorem setV_v (x : Reg) (b : Byte) (s : State) : (setV x b s).v = s.v.set x b := rfl
@[simp] theorem setV_i (x : Reg) (b : Byte) (s : State) : (setV x b s).i = s.i := rfl
@[simp] theorem setV_pc (x : Reg) (b : Byte) (s : State) : (setV x b s).pc = s.pc := rfl
@[simp] theorem setV_sp (x : Reg) (b : Byte) (s : State) : (setV x b s).sp = s.sp := rfl
@[simp] theorem setV_stack (x : Reg) (b : Byte) (s : State) : (setV x b s).stack = s.stack := rfl
@[simp] theorem setV_opcode (x : Reg) (b : Byte) (s : State) : (setV x b s).opcode = s.opcode := rfl
@[simp] theorem setV_dt (x : Reg) (b : Byte) (s : State) : (setV x b s).dt = s.dt := rfl
@[simp] theorem setV_st (x : Reg) (b : Byte) (s : State) : (setV x b s).st = s.st := rfl
@[simp] theorem setV_mem (x : Reg) (b : Byte) (s : State) : (setV x b s).mem = s.mem := rfl
@[simp] theorem setV_fb (x : Reg) (b : Byte) (s : State) : (setV x b s).fb = s.fb := rfl
@[simp] theorem setV_key (x : Reg) (b : Byte) (s : State) : (setV x b s).key = s.key := rfl
@[simp] theorem setV_anyKey (x : Reg) (b : Byte) (s : State) : (setV x b s).anyKey = s.anyKey := rfl
@[simp] theorem setV_lastKey (x : Reg) (b : Byte) (s : State) : (setV x b s).lastKey = s.lastKey := rfl
@[simp] theorem setV_drawFlag (x : Reg) (b : Byte) (s : State) : (setV x b s).drawFlag = s.drawFlag := rfl
@[simp] theorem setV_fault (x : Reg) (b : Byte) (s : State) : (setV x b s).fault = s.fault := rfl
@[simp] theorem setV_draws (x : Reg) (b : Byte) (s : State) : (setV x b s).draws = s.draws := rfl
@[simp] theorem setV_agenda (x : Reg) (b : Byte) (s : State) : (setV x b s).agenda = s.agenda := rfl

/-! ### `setFlag` -/

@[simp] theorem setFlag_v (c : Bool) (s : State) : (setFlag c s).v = s.v.set flagReg (flagByte c) := rfl
@[simp] theorem setFlag_i (c : Bool) (s : State) : (setFlag c s).i = s.i := rfl
@[simp] theorem setFlag_pc (c : Bool) (s : State) : (setFlag c s).pc = s.pc := rfl
@[simp] theorem setFlag_sp (c : Bool) (s : State) : (setFlag c s).sp = s.sp := rfl
@[simp] theorem setFlag_stack (c : Bool) (s : State) : (setFlag c s).stack = s.stack := rfl
@[simp] theorem setFlag_opcode (c : Bool) (s : State) : (setFlag c s).opcode = s.opcode := rfl
@[simp] theorem setFlag_dt (c : Bool) (s : State) : (setFlag c s).dt = s.dt := rfl
@[simp] theorem setFlag_st (c : Bool) (s : State) : (setFlag c s).st = s.st := rfl
@[simp] theorem setFlag_mem (c : Bool) (s : State) : (setFlag c s).mem = s.mem := rfl
@[simp] theorem setFlag_fb (c : Bool) (s : State) : (setFlag c s).fb = s.fb := rfl
@[simp] theorem setFlag_key (c : Bool) (s : State) : (setFlag c s).key = s.key := rfl
@[simp] theorem setFlag_anyKey (c : Bool) (s : State) : (setFlag c s).anyKey = s.anyKey := rfl
@[simp] theorem setFlag_lastKey (c : Bool) (s : State) : (setFlag c s).lastKey = s.lastKey := rfl
@[simp] theorem setFlag_drawFlag (c : Bool) (s : State) : (setFlag c s).drawFlag = s.drawFlag := rfl
@[simp] theorem setFlag_fault (c : Bool) (s : State) : (setFlag c s).fault = s.fault := rfl
@[simp] theorem setFlag_draws (c : Bool) (s : State) : (setFlag c s).draws = s.draws := rfl
@[simp] theorem setFlag_agenda (c : Bool) (s : State) : (setFlag c s).agenda = s.agenda := rfl

/-! ### `skip` -/

@[simp] theorem skip_v (s : State) : (skip s).v = s.v := rfl
@[simp] theorem skip_i (s : State) : (skip s).i = s.i := rfl
@[simp] theorem skip_pc (s : State) : (skip s).pc = s.pc + 2#16 := rfl
@[simp] theorem skip_sp (s : State) : (skip s).sp = s.sp := rfl
@[simp] theorem skip_stack (s : State) : (skip s).stack = s.stack := rfl
@[simp] theorem skip_opcode (s : State) : (skip s).opcode = s.opcode := rfl
@[simp] theorem skip_dt (s : State) : (skip s).dt = s.dt := rfl
@[simp] theorem skip_st (s : State) : (skip s).st = s.st := rfl
@[simp] theorem skip_mem (s : State) : (skip s).mem = s.mem := rfl
@[simp] theorem skip_fb (s : State) : (skip s).fb = s.fb := rfl
@[simp] theorem skip_key (s : State) : (skip s).key = s.key := rfl
@[simp] theorem skip_anyKey (s : State) : (skip s).anyKey = s.anyKey := rfl
@[simp] theorem skip_lastKey (s : State) : (skip s).lastKey = s.lastKey := rfl
@[simp] theorem skip_drawFlag (s : State) : (skip s).drawFlag = s.drawFlag := rfl
@[simp] theorem skip_fault (s : State) : (skip s).fault = s.fault := rfl
@[simp] theorem skip_draws (s : State) : (skip s).draws = s.draws := rfl
@[simp] theorem skip_agenda (s : State) : (skip s).agenda = s.agenda := rfl

/-! ### `skipIf` -/

@[simp] theorem skipIf_v (c : Bool) (s : State) : (skipIf c s).v = s.v := by
  cases c <;> rfl
@[simp] theorem skipIf_i (c : Bool) (s : State) : (skipIf c s).i = s.i := by
  cases c <;> rfl
@[simp] theorem skipIf_pc (c : Bool) (s : State) : (skipIf c s).pc = if c then s.pc + 2#16 else s.pc := by
  cases c <;> rfl
@[simp] theorem skipIf_sp (c : Bool) (s : State) : (skipIf c s).sp = s.sp := by
  cases c <;> rfl
@[simp] theorem skipIf_stack (c : Bool) (s : State) : (skipIf c s).stack = s.stack := by
  cases c <;> rfl
@[simp] theorem skipIf_opcode (c : Bool) (s : State) : (skipIf c s).opcode = s.opcode := by
  cases c <;> rfl
@[simp] theorem skipIf_dt (c : Bool) (s : State) : (skipIf c s).dt = s.dt := by
  cases c <;> rfl
@[simp] theorem skipIf_st (c : Bool) (s : State) : (skipIf c s).st = s.st := by
  cases c <;> rfl
@[simp] theorem skipIf_mem (c : Bool) (s : State) : (skipIf c s).mem = s.mem := by
  cases c <;> rfl
@[simp] theorem skipIf_fb (c : Bool) (s : State) : (skipIf c s).fb = s.fb := by
  cases c <;> rfl
@[simp] theorem skipIf_key (c : Bool) (s : State) : (skipIf c s).key = s.key := by
  cases c <;> rfl
@[simp] theorem skipIf_anyKey (c : Bool) (s : State) : (skipIf c s).anyKey = s.anyKey := by
  cases c <;> rfl
@[simp] theorem skipIf_lastKey (c : Bool) (s : State) : (skipIf c s).lastKey = s.lastKey := by
  cases c <;> rfl
@[simp] theorem skipIf_drawFlag (c : Bool) (s : State) : (skipIf c s).drawFlag = s.drawFlag := by
  cases c <;> rfl
@[simp] theorem skipIf_fault (c : Bool) (s : State) : (skipIf c s).fault = s.fault := by
  cases c <;> rfl
@[simp] theorem skipIf_draws (c : Bool) (s : State) : (skipIf c s).draws = s.draws := by
  cases c <;> rfl
@[simp] theorem skipIf_agenda (c : Bool) (s : State) : (skipIf c s).agenda = s.agenda := by
  cases c <;> rfl

/-! ### `beginCycle` -/

@[simp] theorem beginCycle_v (s : State) : (beginCycle s).v = s.v := rfl
@[simp] theorem beginCycle_i (s : State) : (beginCycle s).i = s.i := rfl
@[simp] theorem beginCycle_pc (s : State) : (beginCycle s).pc = s.pc := rfl
@[simp] theorem beginCycle_sp (s : State) : (beginCycle s).sp = s.sp := rfl
@[simp] theorem beginCycle_stack (s : State) : (beginCycle s).stack = s.stack := rfl
@[simp] theorem beginCycle_opcode (s : State) : (beginCycle s).opcode = s.opcode := rfl
@[simp] theorem beginCycle_dt (s : State) : (beginCycle s).dt = s.dt := rfl
@[simp] theorem beginCycle_st (s : State) : (beginCycle s).st = s.st := rfl
@[simp] theorem beginCycle_mem (s : State) : (beginCycle s).mem = s.mem := rfl
@[simp] theorem beginCycle_fb (s : State) : (beginCycle s).fb = s.fb := rfl
@[simp] theorem beginCycle_key (s : State) : (beginCycle s).key = s.key := rfl
@[simp] theorem beginCycle_anyKey (s : State) : (beginCycle s).anyKey = s.anyKey := rfl
@[simp] theorem beginCycle_lastKey (s : State) : (beginCycle s).lastKey = s.lastKey := rfl
@[simp] theorem beginCycle_drawFlag (s : State) : (beginCycle s).drawFlag = false := rfl
@[simp] theorem beginCycle_fault (s : State) : (beginCycle s).fault = s.fault := rfl
@[simp] theorem beginCycle_draws (s : State) : (beginCycle s).draws = s.draws := rfl
@[simp] theorem beginCycle_agenda (s : State) : (beginCycle s).agenda = s.agenda := rfl

/-! ### `afterFetch` -/

@[simp] theorem afterFetch_v (w : Word) (s : State) : (afterFetch w s).v = s.v := rfl
@[simp] theorem afterFetch_i (w : Word) (s : State) : (afterFetch w s).i = s.i := rfl
@[simp] theorem afterFetch_pc (w : Word) (s : State) : (afterFetch w s).pc = s.pc + 2#16 := rfl
@[simp] theorem afterFetch_sp (w : Word) (s : State) : (afterFetch w s).sp = s.sp := rfl
@[simp] theorem afterFetch_stack (w : Word) (s : State) : (afterFetch w s).stack = s.stack := rfl
@[simp] theorem afterFetch_opcode (w : Word) (s : State) : (afterFetch w s).opcode = w := rfl
@[simp] theorem afterFetch_dt (w : Word) (s : State) : (afterFetch w s).dt = s.dt := rfl
@[simp] theorem afterFetch_st (w : Word) (s : State) : (afterFetch w s).st = s.st := rfl
@[simp] theorem afterFetch_mem (w : Word) (s : State) : (afterFetch w s).mem = s.mem := rfl
@[simp] theorem afterFetch_fb (w : Word) (s : State) : (afterFetch w s).fb = s.fb := rfl
@[simp] theorem afterFetch_key (w : Word) (s : State) : (afterFetch w s).key = s.key := rfl
@[simp] theorem afterFetch_anyKey (w : Word) (s : State) : (afterFetch w s).anyKey = s.anyKey := rfl
@[simp] theorem afterFetch_lastKey (w : Word) (s : State) : (afterFetch w s).lastKey = s.lastKey := rfl
@[simp] theorem afterFetch_drawFlag (w : Word) (s : State) : (afterFetch w s).drawFlag = s.drawFlag := rfl
@[simp] theorem afterFetch_fault (w : Word) (s : State) : (afterFetch w s).fault = s.fault := rfl
@[simp] theorem afterFetch_draws (w : Word) (s : State) : (afterFetch w s).draws = s.draws := rfl
@[simp] theorem afterFetch_agenda (w : Word) (s : State) : (afterFetch w s).agenda = s.agenda := rfl

/-! ### `fetched` -/

@[simp] theorem fetched_v (w : Word) (s : State) : (fetched w s).v = s.v := rfl
@[simp] theorem fetched_i (w : Word) (s : State) : (fetched w s).i = s.i := rfl
@[simp] theorem fetched_pc (w : Word) (s : State) : (fetched w s).pc = s.pc + 2#16 := rfl
@[simp] theorem fetched_sp (w : Word) (s : State) : (fetched w s).sp = s.sp := rfl
@[simp] theorem fetched_stack (w : Word) (s : State) : (fetched w s).stack = s.stack := rfl
@[simp] theorem fetched_opcode (w : Word) (s : State) : (fetched w s).opcode = w := rfl
@[simp] theorem fetched_dt (w : Word) (s : State) : (fetched w s).dt = s.dt := rfl
@[simp] theorem fetched_st (w : Word) (s : State) : (fetched w s).st = s.st := rfl
@[simp] theorem fetched_mem (w : Word) (s : State) : (fetched w s).mem = s.mem := rfl
@[simp] theorem fetched_fb (w : Word) (s : State) : (fetched w s).fb = s.fb := rfl
@[simp] theorem fetched_key (w : Word) (s : State) : (fetched w s).key = s.key := rfl
@[simp] theorem fetched_anyKey (w : Word) (s : State) : (fetched w s).anyKey = s.anyKey := rfl
@[simp] theorem fetched_lastKey (w : Word) (s : State) : (fetched w s).lastKey = s.lastKey := rfl
@[simp] theorem fetched_drawFlag (w : Word) (s : State) : (fetched w s).drawFlag = false := rfl
@[simp] theorem fetched_fault (w : Word) (s : State) : (fetched w s).fault = s.fault := rfl
@[simp] theorem fetched_draws (w : Word) (s : State) : (fetched w s).draws = s.draws := rfl
@[simp] theorem fetched_agenda (w : Word) (s : State) : (fetched w s).agenda = s.agenda := rfl

/-! ### `recordFault` -/

@[simp] theorem recordFault_v (f : Fault) (s : State) : (recordFault f s).v = s.v := rfl
@[simp] theorem recordFault_i (f : Fault) (s : State) : (recordFault f s).i = s.i := rfl
@[simp] theorem recordFault_pc (f : Fault) (s : State) : (recordFault f s).pc = s.pc := rfl
@[simp] theorem recordFault_sp (f : Fault) (s : State) : (recordFault f s).sp = s.sp := rfl
@[simp] theorem recordFault_stack (f : Fault) (s : State) : (recordFault f s).stack = s.stack := rfl
@[simp] theorem recordFault_opcode (f : Fault) (s : State) : (recordFault f s).opcode = s.opcode := rfl
@[simp] theorem recordFault_dt (f : Fault) (s : State) : (recordFault f s).dt = s.dt := rfl
@[simp] theorem recordFault_st (f : Fault) (s : State) : (recordFault f s).st = s.st := rfl
@[simp] theorem recordFault_mem (f : Fault) (s : State) : (recordFault f s).mem = s.mem := rfl
@[simp] theorem recordFault_fb (f : Fault) (s : State) : (recordFault f s).fb = s.fb := rfl
@[simp] theorem recordFault_key (f : Fault) (s : State) : (recordFault f s).key = s.key := rfl
@[simp] theorem recordFault_anyKey (f : Fault) (s : State) : (recordFault f s).anyKey = s.anyKey := rfl
@[simp] theorem recordFault_lastKey (f : Fault) (s : State) : (recordFault f s).lastKey = s.lastKey := rfl
@[simp] theorem recordFault_drawFlag (f : Fault) (s : State) : (recordFault f s).drawFlag = s.drawFlag := rfl
@[simp] theorem recordFault_fault (f : Fault) (s : State) : (recordFault f s).fault = s.fault.or (some f) := by
  cases h : s.fault <;> simp [recordFault, h]
@[simp] theorem recordFault_draws (f : Fault) (s : State) : (recordFault f s).draws = s.draws := rfl
@[simp] theorem recordFault_agenda (f : Fault) (s : State) : (recordFault f s).agenda = s.agenda := rfl

/-! ### `advanceI` -/

@[simp] theorem advanceI_v (x : Reg) (s : State) : (advanceI x s).v = s.v := rfl
@[simp] theorem advanceI_i (x : Reg) (s : State) : (advanceI x s).i = s.i + BitVec.ofNat 16 (x.val + 1) := rfl
@[simp] theorem advanceI_pc (x : Reg) (s : State) : (advanceI x s).pc = s.pc := rfl
@[simp] theorem advanceI_sp (x : Reg) (s : State) : (advanceI x s).sp = s.sp := rfl
@[simp] theorem advanceI_stack (x : Reg) (s : State) : (advanceI x s).stack = s.stack := rfl
@[simp] theorem advanceI_opcode (x : Reg) (s : State) : (advanceI x s).opcode = s.opcode := rfl
@[simp] theorem advanceI_dt (x : Reg) (s : State) : (advanceI x s).dt = s.dt := rfl
@[simp] theorem advanceI_st (x : Reg) (s : State) : (advanceI x s).st = s.st := rfl
@[simp] theorem advanceI_mem (x : Reg) (s : State) : (advanceI x s).mem = s.mem := rfl
@[simp] theorem advanceI_fb (x : Reg) (s : State) : (advanceI x s).fb = s.fb := rfl
@[simp] theorem advanceI_key (x : Reg) (s : State) : (advanceI x s).key = s.key := rfl
@[simp] theorem advanceI_anyKey (x : Reg) (s : State) : (advanceI x s).anyKey = s.anyKey := rfl
@[simp] theorem advanceI_lastKey (x : Reg) (s : State) : (advanceI x s).lastKey = s.lastKey := rfl
@[simp] theorem advanceI_drawFlag (x : Reg) (s : State) : (advanceI x s).drawFlag = s.drawFlag := rfl
@[simp] theorem advanceI_fault (x : Reg) (s : State) : (advanceI x s).fault = s.fault := rfl
@[simp] theorem advanceI_draws (x : Reg) (s : State) : (advanceI x s).draws = s.draws := rfl
@[simp] theorem advanceI_agenda (x : Reg) (s : State) : (advanceI x s).agenda = s.agenda := rfl

/-! ### `gfxClear` -/

@[simp] theorem gfxClear_v (s : State) : (gfxClear s).v = s.v := rfl
@[simp] theorem gfxClear_i (s : State) : (gfxClear s).i = s.i := rfl
@[simp] theorem gfxClear_pc (s : State) : (gfxClear s).pc = s.pc := rfl
@[simp] theorem gfxClear_sp (s : State) : (gfxClear s).sp = s.sp := rfl
@[simp] theorem gfxClear_stack (s : State) : (gfxClear s).stack = s.stack := rfl
@[simp] theorem gfxClear_opcode (s : State) : (gfxClear s).opcode = s.opcode := rfl
@[simp] theorem gfxClear_dt (s : State) : (gfxClear s).dt = s.dt := rfl
@[simp] theorem gfxClear_st (s : State) : (gfxClear s).st = s.st := rfl
@[simp] theorem gfxClear_mem (s : State) : (gfxClear s).mem = s.mem := rfl
@[simp] theorem gfxClear_fb (s : State) : (gfxClear s).fb = blankScreen := rfl
@[simp] theorem gfxClear_key (s : State) : (gfxClear s).key = s.key := rfl
@[simp] theorem gfxClear_anyKey (s : State) : (gfxClear s).anyKey = s.anyKey := rfl
@[simp] theorem gfxClear_lastKey (s : State) : (gfxClear s).lastKey = s.lastKey := rfl
@[simp] theorem gfxClear_drawFlag (s : State) : (gfxClear s).drawFlag = s.drawFlag := rfl
@[simp] theorem gfxClear_fault (s : State) : (gfxClear s).fault = s.fault := rfl
@[simp] theorem gfxClear_draws (s : State) : (gfxClear s).draws = s.draws := rfl
@[simp] theorem gfxClear_agenda (s : State) : (gfxClear s).agenda = s.agenda := rfl

/-! ### `markDrawn` -/

@[simp] theorem markDrawn_v (s : State) : (markDrawn s).v = s.v := rfl
@[simp] theorem markDrawn_i (s : State) : (markDrawn s).i = s.i := rfl
@[simp] theorem markDrawn_pc (s : State) : (markDrawn s).pc = s.pc := rfl
@[simp] theorem markDrawn_sp (s : State) : (markDrawn s).sp = s.sp := rfl
@[simp] theorem markDrawn_stack (s : State) : (markDrawn s).stack = s.stack := rfl
@[simp] theorem markDrawn_opcode (s : State) : (markDrawn s).opcode = s.opcode := rfl
@[simp] theorem markDrawn_dt (s : State) : (markDrawn s).dt = s.dt := rfl
@[simp] theorem markDrawn_st (s : State) : (markDrawn s).st = s.st := rfl
@[simp] theorem markDrawn_mem (s : State) : (markDrawn s).mem = s.mem := rfl
@[simp] theorem markDrawn_fb (s : State) : (markDrawn s).fb = s.fb := rfl
@[simp] theorem markDrawn_key (s : State) : (markDrawn s).key = s.key := rfl
@[simp] theorem markDrawn_anyKey (s : State) : (markDrawn s).anyKey = s.anyKey := rfl
@[simp] theorem markDrawn_lastKey (s : State) : (markDrawn s).lastKey = s.lastKey := rfl
@[simp] theorem markDrawn_drawFlag (s : State) : (markDrawn s).drawFlag = true := rfl
@[simp] theorem markDrawn_fault (s : State) : (markDrawn s).fault = s.fault := rfl
@[simp] theorem markDrawn_draws (s : State) : (markDrawn s).draws = s.draws := rfl
@[simp] theorem markDrawn_agenda (s : State) : (markDrawn s).agenda = s.agenda := rfl

/-! ### `countDraw` -/

@[simp] theorem countDraw_v (s : State) : (countDraw s).v = s.v := rfl
@[simp] theorem countDraw_i (s : State) : (countDraw s).i = s.i := rfl
@[simp] theorem countDraw_pc (s : State) : (countDraw s).pc = s.pc := rfl
@[simp] theorem countDraw_sp (s : State) : (countDraw s).sp = s.sp := rfl
@[simp] theorem countDraw_stack (s : State) : (countDraw s).stack = s.stack := rfl
@[simp] theorem countDraw_opcode (s : State) : (countDraw s).opcode = s.opcode := rfl
@[simp] theorem countDraw_dt (s : State) : (countDraw s).dt = s.dt := rfl
@[simp] theorem countDraw_st (s : State) : (countDraw s).st = s.st := rfl
@[simp] theorem countDraw_mem (s : State) : (countDraw s).mem = s.mem := rfl
@[simp] theorem countDraw_fb (s : State) : (countDraw s).fb = s.fb := rfl
@[simp] theorem countDraw_key (s : State) : (countDraw s).key = s.key := rfl
@[simp] theorem countDraw_anyKey (s : State) : (countDraw s).anyKey = s.anyKey := rfl
@[simp] theorem countDraw_lastKey (s : State) : (countDraw s).lastKey = s.lastKey := rfl
@[simp] theorem countDraw_drawFlag (s : State) : (countDraw s).drawFlag = s.drawFlag := rfl
@[simp] theorem countDraw_fault (s : State) : (countDraw s).fault = s.fault := rfl
@[simp] theorem countDraw_draws (s : State) : (countDraw s).draws = s.draws + 1 := rfl
@[simp] theorem countDraw_agenda (s : State) : (countDraw s).agenda = s.agenda := rfl

/-! ### `timerSet_delay` -/

@[simp] theorem timerSet_delay_v (b : Byte) (s : State) : (timerSet .delay b s).v = s.v := rfl
@[simp] theorem timerSet_delay_i (b : Byte) (s : State) : (timerSet .delay b s).i = s.i := rfl
@[simp] theorem timerSet_delay_pc (b : Byte) (s : State) : (timerSet .delay b s).pc = s.pc := rfl
@[simp] theorem timerSet_delay_sp (b : Byte) (s : State) : (timerSet .delay b s).sp = s.sp := rfl
@[simp] theorem timerSet_delay_stack (b : Byte) (s : State) : (timerSet .delay b s).stack = s.stack := rfl
@[simp] theorem timerSet_delay_opcode (b : Byte) (s : State) : (timerSet .delay b s).opcode = s.opcode := rfl
@[simp] theorem timerSet_delay_dt (b : Byte) (s : State) : (timerSet .delay b s).dt = b := rfl
@[simp] theorem timerSet_delay_st (b : Byte) (s : State) : (timerSet .delay b s).st = s.st := rfl
@[simp] theorem timerSet_delay_mem (b : Byte) (s : State) : (timerSet .delay b s).mem = s.mem := rfl
@[simp] theorem timerSet_delay_fb (b : Byte) (s : State) : (timerSet .delay b s).fb = s.fb := rfl
@[simp] theorem timerSet_delay_key (b : Byte) (s : State) : (timerSet .delay b s).key = s.key := rfl
@[simp] theorem timerSet_delay_anyKey (b : Byte) (s : State) : (timerSet .delay b s).anyKey = s.anyKey := rfl
@[simp] theorem timerSet_delay_lastKey (b : Byte) (s : State) : (timerSet .delay b s).lastKey = s.lastKey := rfl
@[simp] theorem timerSet_delay_drawFlag (b : Byte) (s : State) : (timerSet .delay b s).drawFlag = s.drawFlag := rfl
@[simp] theorem timerSet_delay_fault (b : Byte) (s : State) : (timerSet .delay b s).fault = s.fault := rfl
@[simp] theorem timerSet_delay_draws (b : Byte) (s : State) : (timerSet .delay b s).draws = s.draws := rfl
@[simp] theorem timerSet_delay_agenda (b : Byte) (s : State) : (timerSet .delay b s).agenda = s.agenda := rfl

/-! ### `timerSet_sound` -/

@[simp] theorem timerSet_sound_v (b : Byte) (s : State) : (timerSet .sound b s).v = s.v := rfl
@[simp] theorem timerSet_sound_i (b : Byte) (s : State) : (timerSet .sound b s).i = s.i := rfl
@[simp] theorem timerSet_sound_pc (b : Byte) (s : State) : (timerSet .sound b s).pc = s.pc := rfl
@[simp] theorem timerSet_sound_sp (b : Byte) (s : State) : (timerSet .sound b s).sp = s.sp := rfl
@[simp] theorem timerSet_sound_stack (b : Byte) (s : State) : (timerSet .sound b s).stack = s.stack := rfl
@[simp] theorem timerSet_sound_opcode (b : Byte) (s : State) : (timerSet .sound b s).opcode = s.opcode := rfl
@[simp] theorem timerSet_sound_dt (b : Byte) (s : State) : (timerSet .sound b s).dt = s.dt := rfl
@[simp] theorem timerSet_sound_st (b : Byte) (s : State) : (timerSet .sound b s).st = b := rfl
@[simp] theorem timerSet_sound_mem (b : Byte) (s : State) : (timerSet .sound b s).mem = s.mem := rfl
@[simp] theorem timerSet_sound_fb (b : Byte) (s : State) : (timerSet .sound b s).fb = s.fb := rfl
@[simp] theorem timerSet_sound_key (b : Byte) (s : State) : (timerSet .sound b s).key = s.key := rfl
@[simp] theorem timerSet_sound_anyKey (b : Byte) (s : State) : (timerSet .sound b s).anyKey = s.anyKey := rfl
@[simp] theorem timerSet_sound_lastKey (b : Byte) (s : State) : (timerSet .sound b s).lastKey = s.lastKey := rfl
@[simp] theorem timerSet_sound_drawFlag (b : Byte) (s : State) : (timerSet .sound b s).drawFlag = s.drawFlag := rfl
@[simp] theorem timerSet_sound_fault (b : Byte) (s : State) : (timerSet .sound b s).fault = s.fault := rfl
@[simp] theorem timerSet_sound_draws (b : Byte) (s : State) : (timerSet .sound b s).draws = s.draws := rfl
@[simp] theorem timerSet_sound_agenda (b : Byte) (s : State) : (timerSet .sound b s).agenda = s.agenda := rfl

/-! ### Reading registers back -/

@[simp] theorem getV_setV_self (x : Reg) (b : Byte) (s : State) : getV x (setV x b s) = b := by
  simp [getV]

theorem getV_setV_of_ne {x y : Reg} (h : x ≠ y) (b : Byte) (s : State) :
    getV y (setV x b s) = getV y s := by
  have : x.val ≠ y.val := fun e => h (Fin.ext e)
  simp [getV, this]

theorem getV_setV (x y : Reg) (b : Byte) (s : State) :
    getV y (setV x b s) = if x = y then b else getV y s := by
  split
  · subst x; simp
  · exact getV_setV_of_ne (by assumption) b s

/-- A fault is recorded where none was. -/
theorem recordFault_fault_of_none {s : State} (h : s.fault = none) (f : Fault) :
    (recordFault f s).fault = some f := by
  simp [h]

/-- Raising where no fault was recorded changes FAULT and nothing else (00_scope.md R14). -/
theorem raise_of_none {s : State} (h : s.fault = none) (f : Fault) :
    raise f s = .next { s with fault := some f } := by
  simp [raise, recordFault, h]

end Sys2Proof.Machine
end

