-- ==== Sys2Proof/Laws/Memory.lean ====
section
/-!
SUPPORT. The laws of memory: what is read after a write, and that every write keeps the canonical form.
-/

namespace Sys2Proof.Machine

theorem Memory.lookup_put_self (m : Memory) (a : Nat) (w : Byte) :
    Memory.lookup (Memory.put m a w) a = some w := by
  induction m with
  | nil => simp [Memory.put, Memory.lookup]
  | cons c m ih =>
    obtain ⟨b, u⟩ := c
    simp only [Memory.put]
    split
    · simp [Memory.lookup]
    · split
      · simp [Memory.lookup]
      · simp only [Memory.lookup]
        rw [if_neg (by omega)]
        exact ih

theorem Memory.lookup_put_of_ne (m : Memory) {a b : Nat} (h : a ≠ b) (w : Byte) :
    Memory.lookup (Memory.put m a w) b = Memory.lookup m b := by
  induction m with
  | nil => simp [Memory.put, Memory.lookup, h]
  | cons c m ih =>
    obtain ⟨d, u⟩ := c
    simp only [Memory.put]
    split
    · simp [Memory.lookup, h]
    · split
      · subst d; simp [Memory.lookup, h]
      · simp only [Memory.lookup, ih]

theorem Memory.lookup_erase_self (m : Memory) (a : Nat) :
    Memory.lookup (Memory.erase m a) a = none := by
  induction m with
  | nil => rfl
  | cons c m ih =>
    obtain ⟨b, u⟩ := c
    by_cases h : b = a
    · simpa [Memory.erase, h] using ih
    · simpa [Memory.erase, Memory.lookup, h] using ih

theorem Memory.lookup_erase_of_ne (m : Memory) {a b : Nat} (h : a ≠ b) :
    Memory.lookup (Memory.erase m a) b = Memory.lookup m b := by
  induction m with
  | nil => rfl
  | cons c m ih =>
    obtain ⟨d, u⟩ := c
    by_cases hd : d = a
    · simpa [Memory.erase, Memory.lookup, hd, h] using ih
    · have : Memory.erase ((d, u) :: m) a = (d, u) :: Memory.erase m a := by
        simp [Memory.erase, hd]
      rw [this]
      simp only [Memory.lookup, ih]

/-- A read gives the value just written there (20_memory.md R52). -/
@[simp] theorem Memory.read_write_self (m : Memory) (a : Nat) (w : Byte) :
    (m.write a w).read a = w := by
  unfold Memory.write Memory.read
  split
  · rw [Memory.lookup_erase_self]; exact (by assumption : w = resetByte a).symm
  · rw [Memory.lookup_put_self]; rfl

/-- A write leaves every other cell alone (20_memory.md R52). -/
theorem Memory.read_write_of_ne (m : Memory) {a b : Nat} (h : a ≠ b) (w : Byte) :
    (m.write a w).read b = m.read b := by
  unfold Memory.write Memory.read
  split
  · rw [Memory.lookup_erase_of_ne m h]
  · rw [Memory.lookup_put_of_ne m h]

theorem Memory.read_write (m : Memory) (a b : Nat) (w : Byte) :
    (m.write a w).read b = if a = b then w else m.read b := by
  split
  · subst b; simp
  · exact Memory.read_write_of_ne m (by assumption) w

/-- Memory at reset is in canonical form. -/
theorem Memory.wf_nil : Memory.wf [] = true := rfl

theorem Memory.wfFrom_mono {m : Memory} {lo lo' : Nat} (h : lo' ≤ lo)
    (hm : Memory.wfFrom lo m = true) : Memory.wfFrom lo' m = true := by
  cases m with
  | nil => rfl
  | cons c m =>
    simp only [Memory.wfFrom, Bool.and_eq_true, decide_eq_true_eq] at hm ⊢
    exact ⟨⟨⟨by omega, hm.1.1.2⟩, hm.1.2⟩, hm.2⟩

theorem Memory.wfFrom_put {m : Memory} {lo a : Nat} {w : Byte} (hl : lo ≤ a)
    (ha : a < Config.memSize) (hw : w ≠ resetByte a) (hm : Memory.wfFrom lo m = true) :
    Memory.wfFrom lo (Memory.put m a w) = true := by
  induction m generalizing lo with
  | nil => simp [Memory.put, Memory.wfFrom, hl, ha, hw]
  | cons c m ih =>
    obtain ⟨b, u⟩ := c
    simp only [Memory.wfFrom, Bool.and_eq_true, decide_eq_true_eq, bne_iff_ne, ne_eq] at hm
    obtain ⟨⟨⟨hb, hb'⟩, hu⟩, hm⟩ := hm
    simp only [Memory.put]
    split
    · simp only [Memory.wfFrom, Bool.and_eq_true, decide_eq_true_eq, bne_iff_ne, ne_eq]
      exact ⟨⟨⟨hl, ha⟩, hw⟩, ⟨⟨by omega, hb'⟩, hu⟩, hm⟩
    · split
      · subst b
        simp only [Memory.wfFrom, Bool.and_eq_true, decide_eq_true_eq, bne_iff_ne, ne_eq]
        exact ⟨⟨⟨hl, ha⟩, hw⟩, hm⟩
      · simp only [Memory.wfFrom, Bool.and_eq_true, decide_eq_true_eq, bne_iff_ne, ne_eq]
        exact ⟨⟨⟨hb, hb'⟩, hu⟩, ih (by omega) hm⟩

theorem Memory.wfFrom_erase {m : Memory} {lo : Nat} (a : Nat) (hm : Memory.wfFrom lo m = true) :
    Memory.wfFrom lo (Memory.erase m a) = true := by
  induction m generalizing lo with
  | nil => rfl
  | cons c m ih =>
    obtain ⟨b, u⟩ := c
    simp only [Memory.wfFrom, Bool.and_eq_true, decide_eq_true_eq] at hm
    obtain ⟨⟨⟨hb, hb'⟩, hu⟩, hm⟩ := hm
    by_cases h : b = a
    · have := Memory.wfFrom_mono (lo' := lo) (by omega) (ih hm)
      simpa [Memory.erase, h] using this
    · have he : Memory.erase ((b, u) :: m) a = (b, u) :: Memory.erase m a := by
        simp [Memory.erase, h]
      rw [he]
      simp only [Memory.wfFrom, Bool.and_eq_true, decide_eq_true_eq]
      exact ⟨⟨⟨hb, hb'⟩, hu⟩, ih hm⟩

/-- A write inside the space keeps the canonical form. -/
theorem Memory.wf_write {m : Memory} {a : Nat} (ha : a < Config.memSize) (w : Byte)
    (hm : m.wf = true) : (m.write a w).wf = true := by
  unfold Memory.write Memory.wf at *
  split
  · exact Memory.wfFrom_erase a hm
  · exact Memory.wfFrom_put (by omega) ha (by assumption) hm

/-- What a memory write can do (20_memory.md R52). -/
theorem memWrite_cases {a : Nat} {w : Byte} {s : State} :
    (a < Config.memSize ∧ memWrite a w s = .ok { s with mem := s.mem.write a w }) ∨
    (Config.memSize ≤ a ∧ memWrite a w s = .error (.addressOutOfRange a)) := by
  unfold memWrite
  split
  · exact .inl ⟨by assumption, rfl⟩
  · exact .inr ⟨by omega, rfl⟩

theorem memRead_of_lt {a : Nat} (h : a < Config.memSize) (s : State) :
    memRead a s = .ok (s.mem.read a) := if_pos h

theorem memRead_of_ge {a : Nat} (h : Config.memSize ≤ a) (s : State) :
    memRead a s = .error (.addressOutOfRange a) := if_neg (by omega)

theorem memWrite_of_lt {a : Nat} (h : a < Config.memSize) (w : Byte) (s : State) :
    memWrite a w s = .ok { s with mem := s.mem.write a w } := if_pos h

theorem memWrite_of_ge {a : Nat} (h : Config.memSize ≤ a) (w : Byte) (s : State) :
    memWrite a w s = .error (.addressOutOfRange a) := if_neg (by omega)

end Sys2Proof.Machine
end

