-- ==== Sys2Proof/Laws/Display.lean ====
section
/-!
SUPPORT. What drawing does to the framebuffer, pixel by pixel (44_display.md R141, 60_exceptions.md R175).
-/

namespace Sys2Proof.Machine

/-! ### Pixels -/

@[simp] theorem pixel_setPixel_self (fb : FrameBuffer) (x : Fin 64) (y : Fin 32) (b : Bool) :
    pixel (setPixel fb x y b) x y = b := by
  simp [pixel, setPixel]

theorem pixel_setPixel (fb : FrameBuffer) (x x' : Fin 64) (y y' : Fin 32) (b : Bool) :
    pixel (setPixel fb x y b) x' y' = if x' = x ∧ y' = y then b else pixel fb x' y' := by
  by_cases hy : y' = y
  · subst hy
    by_cases hx : x' = x
    · subst hx; simp
    · have : x.val ≠ x'.val := fun e => hx (Fin.ext e.symm)
      simp [pixel, setPixel, hx, this]
  · have : y.val ≠ y'.val := fun e => hy (Fin.ext e.symm)
    simp [pixel, setPixel, hy, this]

/-- Two screens with the same pixels are the same screen. -/
theorem frame_ext {fb fb' : FrameBuffer} (h : ∀ x y, pixel fb x y = pixel fb' x y) : fb = fb' := by
  apply Vector.ext
  intro j hj
  apply Vector.ext
  intro i hi
  exact h ⟨i, hi⟩ ⟨j, hj⟩

@[simp] theorem pixel_blankScreen (x : Fin 64) (y : Fin 32) : pixel blankScreen x y = false := by
  simp [pixel, blankScreen]

/-- A draw reports a collision when the pixel was lit and the bit is set. -/
@[simp] theorem drawPixel_fst (fb : FrameBuffer) (x : Fin 64) (y : Fin 32) (bit : Bool) :
    (drawPixel fb x y bit).1 = (pixel fb x y && bit) := by
  cases h : pixel fb x y <;> cases bit <;> simp [drawPixel, collides, h]

theorem pixel_drawPixel (fb : FrameBuffer) (x x' : Fin 64) (y y' : Fin 32) (bit : Bool) :
    pixel (drawPixel fb x y bit).2 x' y' =
      (pixel fb x' y' ^^ (decide (x' = x) && decide (y' = y) && bit)) := by
  simp only [drawPixel, pixel_setPixel]
  by_cases h : x' = x ∧ y' = y
  · obtain ⟨rfl, rfl⟩ := h
    simp
  · rw [if_neg h]
    rcases not_and_or.mp h with h | h <;> simp [h]

/-! ### One sprite row -/

/-- What drawing some columns of a row does, when they fall on different columns of the screen. -/
theorem drawCols_spec (vx : Byte) (y : Fin 32) (b : Byte) (cs : List Nat) (coll : Bool)
    (fb : FrameBuffer) (hn : (cs.map (spriteCol vx)).Nodup) :
    (∀ px py, pixel (drawCols vx y b cs coll fb).2 px py =
      (pixel fb px py ^^
        (decide (py = y) && cs.any fun c => decide (px = spriteCol vx c) && spriteBit b c))) ∧
    (drawCols vx y b cs coll fb).1 =
      (coll || cs.any fun c => pixel fb (spriteCol vx c) y && spriteBit b c) := by
  induction cs generalizing coll fb with
  | nil => simp [drawCols]
  | cons c cs ih =>
    simp only [List.map_cons, List.nodup_cons, List.mem_map, not_exists, not_and] at hn
    obtain ⟨hc, hn⟩ := hn
    obtain ⟨ih1, ih2⟩ := ih (coll || (drawPixel fb (spriteCol vx c) y (spriteBit b c)).1)
      (drawPixel fb (spriteCol vx c) y (spriteBit b c)).2 hn
    constructor
    · intro px py
      rw [drawCols, ih1, pixel_drawPixel]
      by_cases hy : py = y
      · by_cases hx : px = spriteCol vx c
        · have h0 : (cs.any fun c => decide (px = spriteCol vx c) && spriteBit b c) = false := by
            rw [List.any_eq_false]
            intro d hd
            have : ¬ px = spriteCol vx d := fun e => hc d hd (by rw [← e, hx])
            simp [this]
          rw [List.any_cons, h0]
          simp [hx, hy]
        · simp [hx, hy]
      · simp [hy]
    · rw [drawCols, ih2, drawPixel_fst, List.any_cons, Bool.or_assoc]
      congr 2
      apply Bool.eq_iff_iff.mpr
      simp only [List.any_eq_true, Bool.and_eq_true]
      have hp : ∀ d ∈ cs, pixel (drawPixel fb (spriteCol vx c) y (spriteBit b c)).2 (spriteCol vx d) y
          = pixel fb (spriteCol vx d) y := by
        intro d hd
        rw [pixel_drawPixel]
        have : ¬ spriteCol vx d = spriteCol vx c := hc d hd
        simp [this]
      constructor
      · rintro ⟨d, hd, h⟩
        exact ⟨d, hd, by rwa [hp d hd] at h⟩
      · rintro ⟨d, hd, h⟩
        exact ⟨d, hd, by rwa [hp d hd]⟩

/-- The bit a sprite row byte puts on screen column `px`. -/
def rowBit (vx : Byte) (b : Byte) (px : Fin 64) : Bool :=
  decide ((px.val + 64 - vx.toNat % 64) % 64 < 8) &&
    b.getLsbD (7 - (px.val + 64 - vx.toNat % 64) % 64)

theorem lt_of_mem_spriteCols {c : Nat} (h : c ∈ spriteCols) : c < 8 := by
  revert c
  decide

theorem spriteCols_nodup (vx : Byte) : (spriteCols.map (spriteCol vx)).Nodup := by
  have inj : ∀ c ∈ spriteCols, ∀ d ∈ spriteCols, spriteCol vx c = spriteCol vx d → c = d := by
    intro c hc d hd h
    have hc := lt_of_mem_spriteCols hc
    have hd := lt_of_mem_spriteCols hd
    have := congrArg Fin.val h
    simp only [spriteCol] at this
    omega
  exact List.Nodup.map_on inj (by decide)

theorem eq_spriteCol_iff (vx : Byte) (px : Fin 64) (c : Nat) (hc : c < 64) :
    px = spriteCol vx c ↔ (px.val + 64 - vx.toNat % 64) % 64 = c := by
  have := px.isLt
  rw [Fin.ext_iff]
  simp only [spriteCol]
  omega

theorem any_spriteCols (vx : Byte) (b : Byte) (px : Fin 64) :
    (spriteCols.any fun c => decide (px = spriteCol vx c) && spriteBit b c) = rowBit vx b px := by
  apply Bool.eq_iff_iff.mpr
  simp only [List.any_eq_true, Bool.and_eq_true, decide_eq_true_eq, rowBit, spriteBit]
  constructor
  · rintro ⟨c, hc, h, hb⟩
    have hc := lt_of_mem_spriteCols hc
    rw [eq_spriteCol_iff vx px c (by omega)] at h
    rw [h]
    exact ⟨hc, hb⟩
  · rintro ⟨h, hb⟩
    refine ⟨_, ?_, (eq_spriteCol_iff vx px _ (by omega)).mpr rfl, hb⟩
    generalize (px.val + 64 - vx.toNat % 64) % 64 = c at h
    revert c
    decide

/-- What drawing one whole row does: its eight bits are XORed in, and a collision is a lit pixel that
meets a set bit. -/
theorem drawCols_spriteCols (vx : Byte) (y : Fin 32) (b : Byte) (coll : Bool) (fb : FrameBuffer) :
    (∀ px py, pixel (drawCols vx y b spriteCols coll fb).2 px py =
      (pixel fb px py ^^ (decide (py = y) && rowBit vx b px))) ∧
    ((drawCols vx y b spriteCols coll fb).1 = true ↔
      coll = true ∨ ∃ px, pixel fb px y = true ∧ rowBit vx b px = true) := by
  obtain ⟨h1, h2⟩ := drawCols_spec vx y b spriteCols coll fb (spriteCols_nodup vx)
  refine ⟨fun px py => by rw [h1, any_spriteCols], ?_⟩
  rw [h2, Bool.or_eq_true]
  apply or_congr Iff.rfl
  simp only [List.any_eq_true, Bool.and_eq_true]
  constructor
  · rintro ⟨c, hc, hp, hb⟩
    refine ⟨spriteCol vx c, hp, ?_⟩
    rw [← any_spriteCols, List.any_eq_true]
    exact ⟨c, hc, by simp [hb]⟩
  · rintro ⟨px, hp, hb⟩
    rw [← any_spriteCols, List.any_eq_true] at hb
    obtain ⟨c, hc, hb⟩ := hb
    simp only [Bool.and_eq_true, decide_eq_true_eq] at hb
    exact ⟨c, hc, hb.1 ▸ hp, hb.2⟩

/-! ### All rows -/

/-- The sprite row that falls on screen row `py`. -/
def rowIndex (vy : Byte) (py : Fin 32) : Nat := (py.val + 32 - vy.toNat % 32) % 32

theorem eq_spriteRow_iff (vy : Byte) (py : Fin 32) (r : Nat) (hr : r < 32) :
    py = spriteRow vy r ↔ rowIndex vy py = r := by
  have := py.isLt
  rw [Fin.ext_iff]
  simp only [spriteRow, rowIndex]
  omega

/-- The sprite bit on a pixel when the rows from `lo` to before `hi` are drawn. -/
def spriteRowsAt (m : Memory) (base : Nat) (vx vy : Byte) (lo hi : Nat) (px : Fin 64) (py : Fin 32) :
    Bool :=
  decide (lo ≤ rowIndex vy py) && decide (rowIndex vy py < hi) &&
    rowBit vx (m.read (base + rowIndex vy py)) px

theorem spriteRowsAt_zero (m : Memory) (base : Nat) (vx vy : Byte) (n : Nat) (px : Fin 64)
    (py : Fin 32) : spriteRowsAt m base vx vy 0 n px py = spriteAt m base vx vy n px py := by
  simp only [spriteRowsAt, spriteAt, rowBit, rowIndex, Nat.zero_le, decide_true, Bool.true_and]
  ac_rfl

theorem spriteRowsAt_succ (m : Memory) (base : Nat) (vx vy : Byte) {lo hi : Nat} (h : lo < hi)
    (hl : lo < 32) (px : Fin 64) (py : Fin 32) :
    spriteRowsAt m base vx vy lo hi px py =
      ((decide (py = spriteRow vy lo) && rowBit vx (m.read (base + lo)) px) ||
        spriteRowsAt m base vx vy (lo + 1) hi px py) := by
  simp only [spriteRowsAt, eq_spriteRow_iff vy py lo hl]
  by_cases hr : rowIndex vy py = lo
  · simp [hr, h]
  · by_cases h1 : lo ≤ rowIndex vy py
    · have : lo + 1 ≤ rowIndex vy py := by omega
      simp [hr, h1, this]
    · have : ¬ lo + 1 ≤ rowIndex vy py := by omega
      simp [hr, h1, this]

/-- On one pixel at most one of the first row and the later rows draws. -/
theorem spriteRowsAt_xor (m : Memory) (base : Nat) (vx vy : Byte) {lo hi : Nat} (h : lo < hi)
    (hl : lo < 32) (px : Fin 64) (py : Fin 32) (c : Bool) :
    ((c ^^ (decide (py = spriteRow vy lo) && rowBit vx (m.read (base + lo)) px)) ^^
        spriteRowsAt m base vx vy (lo + 1) hi px py) =
      (c ^^ spriteRowsAt m base vx vy lo hi px py) := by
  rw [spriteRowsAt_succ m base vx vy h hl]
  by_cases hr : py = spriteRow vy lo
  · have : spriteRowsAt m base vx vy (lo + 1) hi px py = false := by
      have := (eq_spriteRow_iff vy py lo hl).mp hr
      simp [spriteRowsAt, this]
    simp [this]
  · simp [hr]

/-- What drawing rows that are all in memory does (44_display.md R141). -/
theorem drawRows_go (vx vy : Byte) (base rows r : Nat) (coll : Bool) (s : State)
    (h32 : r + rows ≤ 32) (hm : rows = 0 ∨ base + r + rows ≤ 4096) :
    ∃ coll' fb', drawRows vx vy base rows r coll s = .go coll' { s with fb := fb' } ∧
      (∀ px py, pixel fb' px py =
        (pixel s.fb px py ^^ spriteRowsAt s.mem base vx vy r (r + rows) px py)) ∧
      (coll' = true ↔ coll = true ∨ ∃ px py, pixel s.fb px py = true ∧
        spriteRowsAt s.mem base vx vy r (r + rows) px py = true) := by
  induction rows generalizing r coll s with
  | zero =>
    have h0 : ∀ px py, spriteRowsAt s.mem base vx vy r (r + 0) px py = false := by
      intro px py
      by_cases h : r ≤ rowIndex vy py
      · have : ¬ rowIndex vy py < r := by omega
        simp [spriteRowsAt, this]
      · simp [spriteRowsAt, h]
    refine ⟨coll, s.fb, rfl, fun px py => by rw [h0]; simp, ?_⟩
    constructor
    · exact .inl
    · rintro (h | ⟨px, py, -, h⟩)
      · exact h
      · exact absurd h (by rw [h0]; decide)
  | succ rows ih =>
    have hb : base + r < 4096 := by omega
    obtain ⟨d1, d2⟩ := drawCols_spriteCols vx (spriteRow vy r) (s.mem.read (base + r)) coll s.fb
    rw [drawRows, memRead_of_lt hb]
    obtain ⟨coll', fb', he, hp, hc⟩ := ih (r + 1)
      (drawCols vx (spriteRow vy r) (s.mem.read (base + r)) spriteCols coll s.fb).1
      { s with fb := (drawCols vx (spriteRow vy r) (s.mem.read (base + r)) spriteCols coll s.fb).2 }
      (by omega) (by omega)
    have hr : r + 1 + rows = r + (rows + 1) := by omega
    refine ⟨coll', fb', he, ?_, ?_⟩
    · intro px py
      rw [hp, d1, hr]
      exact spriteRowsAt_xor s.mem base vx vy (by omega) (by omega) px py _
    · rw [hc, d2, hr]
      have hl : r < r + (rows + 1) := by omega
      constructor
      · rintro ((h | ⟨px, h1, h2⟩) | ⟨px, py, h1, h2⟩)
        · exact .inl h
        · exact .inr ⟨px, spriteRow vy r, h1, by
            rw [spriteRowsAt_succ _ _ _ _ hl (by omega)]; simp [h2]⟩
        · right
          refine ⟨px, py, ?_, by rw [spriteRowsAt_succ _ _ _ _ hl (by omega)]; simp [h2]⟩
          have hne : ¬ py = spriteRow vy r := by
            intro e
            have := (eq_spriteRow_iff vy py r (by omega)).mp e
            simp [spriteRowsAt, this] at h2
          simpa [d1, hne] using h1
      · rintro (h | ⟨px, py, h1, h2⟩)
        · exact .inl (.inl h)
        · by_cases hne : py = spriteRow vy r
          · have h0 : spriteRowsAt s.mem base vx vy (r + 1) (r + (rows + 1)) px py = false := by
              have := (eq_spriteRow_iff vy py r (by omega)).mp hne
              simp [spriteRowsAt, this]
            rw [spriteRowsAt_succ _ _ _ _ hl (by omega), h0] at h2
            simp [hne] at h2
            exact .inl (.inr ⟨px, hne ▸ h1, h2⟩)
          · rw [spriteRowsAt_succ _ _ _ _ hl (by omega)] at h2
            simp [hne] at h2
            exact .inr ⟨px, py, by simpa [d1, hne] using h1, h2⟩

/-- What drawing rows that run past memory does: the first address above 4095 is raised with the rows
below it drawn (44_display.md R141, 60_exceptions.md R164). -/
theorem drawRows_stop (vx vy : Byte) (base rows r : Nat) (coll : Bool) (s : State)
    (h32 : r + rows ≤ 32) (h0 : rows ≠ 0) (hm : 4096 < base + r + rows) :
    ∃ fb', drawRows vx vy base rows r coll s =
        .stop (.addressOutOfRange (max (base + r) 4096)) { s with fb := fb' } ∧
      (∀ px py, pixel fb' px py =
        (pixel s.fb px py ^^ spriteRowsAt s.mem base vx vy r (4096 - base) px py)) := by
  induction rows generalizing r coll s with
  | zero => exact absurd rfl h0
  | succ rows ih =>
    by_cases hb : base + r < 4096
    · obtain ⟨d1, -⟩ := drawCols_spriteCols vx (spriteRow vy r) (s.mem.read (base + r)) coll s.fb
      rw [drawRows, memRead_of_lt hb]
      obtain ⟨fb', he, hp⟩ := ih (r + 1)
        (drawCols vx (spriteRow vy r) (s.mem.read (base + r)) spriteCols coll s.fb).1
        { s with fb := (drawCols vx (spriteRow vy r) (s.mem.read (base + r)) spriteCols coll s.fb).2 }
        (by omega) (by omega) (by omega)
      have hmax : max (base + (r + 1)) 4096 = max (base + r) 4096 := by omega
      rw [hmax] at he
      refine ⟨fb', he, ?_⟩
      intro px py
      rw [hp, d1]
      exact spriteRowsAt_xor s.mem base vx vy (by omega) (by omega) px py _
    · rw [drawRows, memRead_of_ge (by simpa using hb)]
      refine ⟨s.fb, by rw [max_eq_left (by omega)], ?_⟩
      intro px py
      have : spriteRowsAt s.mem base vx vy r (4096 - base) px py = false := by
        by_cases h : r ≤ rowIndex vy py
        · have : ¬ rowIndex vy py < 4096 - base := by omega
          simp [spriteRowsAt, this]
        · simp [spriteRowsAt, h]
      simp [this]

/-- Drawing looks at memory and the framebuffer only and changes the framebuffer only: in another state
with the same two it does the same to them. -/
theorem drawRows_congr (vx vy : Byte) (base rows r : Nat) (coll : Bool) (s t : State)
    (hm : t.mem = s.mem) (hf : t.fb = s.fb) :
    drawRows vx vy base rows r coll t =
      match drawRows vx vy base rows r coll s with
      | .go c u => .go c { t with fb := u.fb }
      | .stop f u => .stop f { t with fb := u.fb } := by
  have hself : t = { t with fb := s.fb } := by rw [← hf]
  induction rows generalizing r coll s t with
  | zero =>
    simp only [drawRows]
    exact congrArg _ hself
  | succ rows ih =>
    rw [drawRows, drawRows]
    by_cases h : base + r < 4096
    · rw [memRead_of_lt h, memRead_of_lt h, congrArg (Memory.read · (base + r)) hm, hf]
      exact ih (r + 1) (drawCols vx (spriteRow vy r) (s.mem.read (base + r)) spriteCols coll s.fb).1
        { s with fb := (drawCols vx (spriteRow vy r) (s.mem.read (base + r)) spriteCols coll s.fb).2 }
        { t with fb := (drawCols vx (spriteRow vy r) (s.mem.read (base + r)) spriteCols coll s.fb).2 }
        hm rfl rfl
    · rw [memRead_of_ge (by simpa using h), memRead_of_ge (by simpa using h)]
      exact congrArg _ hself

end Sys2Proof.Machine
end

