-- ==== Sys2Proof/Laws/Ops.lean ====
section
/-!
SUPPORT. For each shared operation one lemma that says all it can do: byte stores, register loads, the
call stack, the fetch, a turn.
-/

namespace Sys2Proof.Machine

/-! ### `storeBytes` -/

/-- The bytes `ws` written at ascending addresses from `a`. -/
def Memory.writeList : Memory → Nat → List Byte → Memory
  | m, _, [] => m
  | m, a, w :: ws => Memory.writeList (m.write a w) (a + 1) ws

/-- What a run of stores can do: all bytes stored, or the first address above 4095 raised with the bytes
below it stored. Nothing but memory changes. -/
theorem storeBytes_eq (a : Nat) (ws : List Byte) (s : State) :
    storeBytes a ws s =
      if ws = [] ∨ a + ws.length ≤ 4096 then .go () { s with mem := s.mem.writeList a ws }
      else .stop (.addressOutOfRange (max a 4096))
        { s with mem := s.mem.writeList a (ws.take (4096 - a)) } := by
  induction ws generalizing a s with
  | nil => simp [storeBytes, Memory.writeList]
  | cons w ws ih =>
    simp only [storeBytes]
    by_cases ha : a < 4096
    · rw [memWrite_of_lt ha]
      simp only [ih]
      obtain ⟨k, hk⟩ : ∃ k, 4096 - a = k + 1 := ⟨4096 - a - 1, by omega⟩
      have hk' : 4096 - (a + 1) = k := by omega
      by_cases hw : ws = []
      · subst hw
        rw [if_pos (.inl rfl), if_pos (.inr (by simp; omega))]
        rfl
      · by_cases hl : a + 1 + ws.length ≤ 4096
        · rw [if_pos (.inr hl), if_pos (.inr (by simp; omega))]
          rfl
        · rw [if_neg (by simp [hw]; omega), if_neg (by simp; omega), hk, hk']
          simp only [List.take_succ_cons, Memory.writeList]
          congr 2
          omega
    · rw [memWrite_of_ge (by simpa using ha)]
      rw [if_neg (by simp; omega)]
      have h0 : 4096 - a = 0 := by omega
      simp only [h0, List.take_zero, Memory.writeList]
      congr 2
      omega

theorem Memory.read_writeList (m : Memory) (a : Nat) (ws : List Byte) (b : Nat) :
    (m.writeList a ws).read b =
      if h : a ≤ b ∧ b < a + ws.length then ws[b - a]'(by omega) else m.read b := by
  induction ws generalizing m a with
  | nil => simp [Memory.writeList]
  | cons w ws ih =>
    rw [Memory.writeList, ih]
    by_cases hb : a = b
    · subst hb
      rw [dif_neg (by omega), dif_pos (by simp)]
      simp
    · rw [Memory.read_write_of_ne m hb]
      by_cases h1 : a + 1 ≤ b ∧ b < a + 1 + ws.length
      · rw [dif_pos h1, dif_pos (by simp; omega)]
        obtain ⟨j, hj⟩ : ∃ j, b - a = j + 1 := ⟨b - a - 1, by omega⟩
        have hj' : b - (a + 1) = j := by omega
        simp only [hj, hj', List.getElem_cons_succ]
      · rw [dif_neg h1, dif_neg (by simp; omega)]

theorem Memory.wf_writeList {m : Memory} {a : Nat} {ws : List Byte} (h : a + ws.length ≤ 4096)
    (hm : m.wf = true) : (m.writeList a ws).wf = true := by
  induction ws generalizing m a with
  | nil => exact hm
  | cons w ws ih =>
    simp only [List.length_cons] at h
    exact ih (by omega) (Memory.wf_write (by show a < 4096; omega) w hm)

/-! ### `loadRegsFrom` -/

/-- The registers `xs` loaded from ascending addresses from `a`. -/
def loadList : Vector Byte 16 → Memory → Nat → List Reg → Vector Byte 16
  | v, _, _, [] => v
  | v, m, a, x :: xs => loadList (v.set x (m.read a)) m (a + 1) xs

/-- What a run of loads can do: all registers loaded, or the first address above 4095 raised with the
registers before it loaded. Nothing but V changes. -/
theorem loadRegsFrom_eq (a : Nat) (xs : List Reg) (s : State) :
    loadRegsFrom a xs s =
      if xs = [] ∨ a + xs.length ≤ 4096 then .go () { s with v := loadList s.v s.mem a xs }
      else .stop (.addressOutOfRange (max a 4096))
        { s with v := loadList s.v s.mem a (xs.take (4096 - a)) } := by
  induction xs generalizing a s with
  | nil => simp [loadRegsFrom, loadList]
  | cons x xs ih =>
    simp only [loadRegsFrom]
    by_cases ha : a < 4096
    · rw [memRead_of_lt ha]
      simp only [ih]
      obtain ⟨k, hk⟩ : ∃ k, 4096 - a = k + 1 := ⟨4096 - a - 1, by omega⟩
      have hk' : 4096 - (a + 1) = k := by omega
      by_cases hx : xs = []
      · subst hx
        rw [if_pos (.inl rfl), if_pos (.inr (by simp; omega))]
        rfl
      · by_cases hl : a + 1 + xs.length ≤ 4096
        · rw [if_pos (.inr hl), if_pos (.inr (by simp; omega))]
          rfl
        · rw [if_neg (by simp [hx]; omega), if_neg (by simp; omega), hk, hk']
          simp only [List.take_succ_cons, loadList, setV]
          congr 2
          omega
    · rw [memRead_of_ge (by simpa using ha)]
      rw [if_neg (by simp; omega)]
      have h0 : 4096 - a = 0 := by omega
      simp only [h0, List.take_zero, loadList]
      congr 2
      omega

/-- The first `n` registers in order, the list FX55 and FX65 run over. -/
theorem regsUpTo_length (x : Reg) : (regsUpTo x).length = x.val + 1 := by
  have := x.isLt
  simp [regsUpTo]

theorem loadList_take_finRange (v : Vector Byte 16) (m : Memory) (a n : Nat) (k : Reg) :
    (loadList v m a ((List.finRange 16).take n))[k] =
      if k.val < n then m.read (a + k.val) else v[k] := by
  have gen : ∀ (xs : List Reg) (v : Vector Byte 16) (a j : Nat),
      (∀ i (h : i < xs.length), (xs[i]).val = j + i) →
      (loadList v m a xs)[k] =
        if j ≤ k.val ∧ k.val < j + xs.length then m.read (a + (k.val - j)) else v[k] := by
    intro xs
    induction xs with
    | nil => intro v a j _; simp [loadList]
    | cons x xs ih =>
      intro v a j h
      have hx : x.val = j := h 0 (by simp)
      rw [loadList, ih _ _ (j + 1) (fun i hi => by
        have := h (i + 1) (by simp; omega)
        simp at this
        omega)]
      simp only [List.length_cons]
      by_cases h1 : j + 1 ≤ k.val ∧ k.val < j + 1 + xs.length
      · rw [if_pos h1, if_pos (by omega)]
        congr 1
        omega
      · rw [if_neg h1]
        by_cases hk : k.val = j
        · rw [if_pos (by omega)]
          simp [hx, hk]
        · rw [if_neg (by omega)]
          have : x.val ≠ k.val := by omega
          simp [this]
  rw [gen _ v a 0 (fun i h => by simp)]
  simp

/-! ### The call stack -/

/-- What a push can do (41_flow.md R102). -/
theorem pushReturn_cases (w : Word) (s : State) :
    (∃ h : s.sp.val < 16, pushReturn w s =
      .ok { s with sp := ⟨s.sp.val + 1, by omega⟩, stack := s.stack.set s.sp.val w }) ∨
    (s.sp.val = 16 ∧ pushReturn w s = .error (.stackPointerInvalid 16)) := by
  unfold pushReturn
  by_cases h : s.sp.val < 16
  · exact .inl ⟨h, by simp [h]⟩
  · have : s.sp.val = 16 := by have := s.sp.isLt; omega
    exact .inr ⟨this, by simp [this]⟩

/-- What a pop can do (41_flow.md R100). -/
theorem popReturn_cases (s : State) :
    (s.sp.val = 0 ∧ popReturn s = .error (.stackPointerInvalid 0)) ∨
    (∃ k : Fin 16, s.sp.val = k.val + 1 ∧
      popReturn s = .ok (s.stack[k], { s with sp := k.castSucc })) := by
  unfold popReturn
  by_cases h : s.sp.val = 0
  · exact .inl ⟨h, by simp [h]⟩
  · have hs := s.sp.isLt
    refine .inr ⟨⟨s.sp.val - 1, by omega⟩, by simp; omega, ?_⟩
    rw [if_neg h]
    rfl

/-! ### The fetch -/

/-- What the two-byte read can do (20_memory.md R53). -/
theorem memReadWord_eq (a : Nat) (s : State) :
    memReadWord a s =
      if a ≤ 4094 then .ok (beWord (s.mem.read a) (s.mem.read (a + 1)))
      else .error (.addressOutOfRange (max a 4096)) := by
  unfold memReadWord
  by_cases h : a < 4096
  · rw [memRead_of_lt h]
    by_cases h1 : a + 1 < 4096
    · rw [memRead_of_lt h1, if_pos (by omega)]
    · have : a = 4095 := by omega
      subst this
      rw [memRead_of_ge (by decide), if_neg (by decide)]
      rfl
  · rw [memRead_of_ge (by simpa using h), if_neg (by omega), max_eq_left (by omega)]

/-- The word a fetch reads is the one whose two bytes lie at PC. -/
theorem fetchWord_of_bytes {s : State} {op : Word} (hp : s.pc.toNat ≤ 4094)
    (hh : s.mem.read s.pc.toNat = hiByte op) (hl : s.mem.read (s.pc.toNat + 1) = loByte op) :
    fetchWord s = .ok op := by
  rw [fetchWord, memReadWord_eq, if_pos hp, hh, hl, beWord_hiByte_loByte]

/-! ### Turns -/

theorem step_of_agenda_nil {s : State} (h : s.agenda = []) : step s = cycle s := by
  simp [step, takeTurn, h]

theorem step_of_agenda_cycle {s : State} {rest : List Turn} (h : s.agenda = .cycle :: rest) :
    step s = cycle { s with agenda := rest } := by
  simp [step, takeTurn, h]

theorem step_of_agenda_event {s : State} {e : Event} {rest : List Turn}
    (h : s.agenda = .event e :: rest) : step s = deliver e { s with agenda := rest } := by
  simp [step, takeTurn, h]

/-- Whose turn it can be. -/
theorem step_cases (s : State) :
    (∃ l, step s = cycle { s with agenda := l }) ∨
    (∃ e l, step s = deliver e { s with agenda := l }) := by
  match h : s.agenda with
  | [] => exact .inl ⟨[], by rw [step_of_agenda_nil h]; congr 1; rw [← h]⟩
  | .cycle :: rest => exact .inl ⟨rest, step_of_agenda_cycle h⟩
  | .event e :: rest => exact .inr ⟨e, rest, step_of_agenda_event h⟩

/-- What a cycle can do (40_cycle_fetch_decode.md R90, R91, R94, R96). -/
theorem cycle_cases (s : State) :
    (∃ f, s.fault = some f ∧ cycle s = .fault f) ∨
    (s.fault = none ∧ 4094 < s.pc.toNat ∧
      cycle s = .next { s with
        drawFlag := false, fault := some (.addressOutOfRange (max s.pc.toNat 4096)) }) ∨
    (s.fault = none ∧ s.pc.toNat ≤ 4094 ∧ ∃ op,
      op = beWord (s.mem.read s.pc.toNat) (s.mem.read (s.pc.toNat + 1)) ∧
      ((∃ i, decode op = .ok i ∧ cycle s = exec i (fetched op s)) ∨
       (∃ e, decode op = .error e ∧
        cycle s = .next { fetched op s with fault := some (.invalidInstruction op) }))) := by
  unfold cycle
  cases hf : s.fault with
  | some f => exact .inl ⟨f, rfl, rfl⟩
  | none =>
    right
    have hw : fetchWord (beginCycle s) = memReadWord s.pc.toNat s := rfl
    simp only [hw, memReadWord_eq]
    by_cases hp : s.pc.toNat ≤ 4094
    · right
      refine ⟨trivial, hp, _, rfl, ?_⟩
      simp only [if_pos hp, decodeExecute]
      cases hd : decode (beWord (s.mem.read s.pc.toNat) (s.mem.read (s.pc.toNat + 1))) with
      | ok i => exact .inl ⟨i, rfl, rfl⟩
      | error e => exact .inr ⟨e, rfl, by rw [raise_of_none (by simpa using hf)]⟩
    · left
      refine ⟨trivial, by omega, ?_⟩
      simp only [if_neg hp]
      rw [raise_of_none (by simpa using hf)]
      rfl

end Sys2Proof.Machine
end

