-- ==== Sys2Proof/Laws/Exec.lean ====
section
/-!
SUPPORT. What the instructions that can raise can do: all the outcomes of RET, CALL, LD.B, ST.regs,
LD.regs and DRW, each said once.
-/

namespace Sys2Proof.Machine

/-- What 00EE can do (41_flow.md R100). -/
theorem execRet_cases (s : State) :
    (∃ k : Fin 16, s.sp = k.succ ∧ execRet s = .next { s with pc := s.stack[k], sp := k.castSucc }) ∨
    (s.sp.val = 0 ∧ execRet s = .next (recordFault (.stackPointerInvalid 0) s)) := by
  rcases popReturn_cases s with ⟨h0, hp⟩ | ⟨k, hk, hp⟩
  · exact .inr ⟨h0, by simp only [execRet, hp, raise]⟩
  · exact .inl ⟨k, Fin.ext hk, by simp only [execRet, hp]⟩

/-- What 2NNN can do (41_flow.md R102). -/
theorem execCall_cases (nnn : Addr12) (s : State) :
    (∃ k : Fin 16, s.sp = k.castSucc ∧ execCall nnn s =
      .next { s with sp := k.succ, stack := s.stack.set k s.pc, pc := addrOf nnn }) ∨
    (s.sp.val = 16 ∧ execCall nnn s = .next (recordFault (.stackPointerInvalid 16) s)) := by
  rcases pushReturn_cases s.pc s with ⟨h, hp⟩ | ⟨h, hp⟩
  · exact .inl ⟨⟨s.sp.val, h⟩, rfl, by simp only [execCall, hp]; rfl⟩
  · exact .inr ⟨h, by simp only [execCall, hp, raise]⟩

/-- What FX33 can do (43_index_memory.md R133). -/
theorem execLdB_cases (x : Reg) (s : State) :
    (s.i.toNat + 2 ≤ 4095 ∧ execLdB x s =
      .next { s with mem := s.mem.writeList s.i.toNat (decimalDigits s.v[x]) }) ∨
    (4095 < s.i.toNat + 2 ∧ execLdB x s =
      .next (recordFault (.addressOutOfRange (max s.i.toNat 4096))
        { s with mem := s.mem.writeList s.i.toNat ((decimalDigits s.v[x]).take (4096 - s.i.toNat)) })) := by
  simp only [execLdB, storeBytes_eq, baseAddr, getV]
  by_cases h : s.i.toNat + 2 ≤ 4095
  · exact .inl ⟨h, by rw [if_pos (.inr (by simp [decimalDigits]; omega))]; rfl⟩
  · exact .inr ⟨by omega, by rw [if_neg (by simp [decimalDigits]; omega)]; rfl⟩

theorem regsUpTo_ne_nil (x : Reg) : regsUpTo x ≠ [] := by
  simp [← List.length_eq_zero_iff, regsUpTo_length]

/-- What FX55 can do (43_index_memory.md R134). -/
theorem execStRegs_cases (x : Reg) (s : State) :
    (s.i.toNat + x.val ≤ 4095 ∧ execStRegs x s =
      .next (advanceI x { s with
        mem := s.mem.writeList s.i.toNat ((regsUpTo x).map fun k => s.v[k]) })) ∨
    (4095 < s.i.toNat + x.val ∧ execStRegs x s =
      .next (recordFault (.addressOutOfRange (max s.i.toNat 4096)) { s with
        mem := s.mem.writeList s.i.toNat
          (((regsUpTo x).map fun k => s.v[k]).take (4096 - s.i.toNat)) })) := by
  simp only [execStRegs, storeBytes_eq, baseAddr, getV]
  by_cases h : s.i.toNat + x.val ≤ 4095
  · exact .inl ⟨h, by rw [if_pos (.inr (by simp [regsUpTo_length]; omega))]; rfl⟩
  · exact .inr ⟨by omega, by
      rw [if_neg (by simp [regsUpTo_ne_nil, regsUpTo_length]; omega)]; rfl⟩

/-- What FX65 can do (43_index_memory.md R135). -/
theorem execLdRegs_cases (x : Reg) (s : State) :
    (s.i.toNat + x.val ≤ 4095 ∧ execLdRegs x s =
      .next (advanceI x { s with v := loadList s.v s.mem s.i.toNat (regsUpTo x) })) ∨
    (4095 < s.i.toNat + x.val ∧ execLdRegs x s =
      .next (recordFault (.addressOutOfRange (max s.i.toNat 4096)) { s with
        v := loadList s.v s.mem s.i.toNat ((regsUpTo x).take (4096 - s.i.toNat)) })) := by
  simp only [execLdRegs, loadRegsFrom_eq, baseAddr]
  by_cases h : s.i.toNat + x.val ≤ 4095
  · exact .inl ⟨h, by rw [if_pos (.inr (by simp [regsUpTo_length]; omega))]; rfl⟩
  · exact .inr ⟨by omega, by
      rw [if_neg (by simp [regsUpTo_ne_nil, regsUpTo_length]; omega)]; rfl⟩

/-- What DXYN can do (44_display.md R141): all rows drawn, with VF and DRAWFLAG, or the rows in memory. -/
theorem execDrw_cases (x y : Reg) (n : Fin 16) (s : State) :
    ((n.val = 0 ∨ s.i.toNat + n.val ≤ 4096) ∧ ∃ coll fb,
      execDrw x y n s = .next (markDrawn (setFlag coll { s with fb := fb })) ∧
      (∀ px py, pixel fb px py =
        (pixel s.fb px py ^^ spriteAt s.mem s.i.toNat s.v[x] s.v[y] n.val px py)) ∧
      (coll = true ↔ ∃ px py, pixel s.fb px py = true ∧
        spriteAt s.mem s.i.toNat s.v[x] s.v[y] n.val px py = true)) ∨
    (n.val ≠ 0 ∧ 4096 < s.i.toNat + n.val ∧ ∃ fb,
      execDrw x y n s =
        .next (recordFault (.addressOutOfRange (max s.i.toNat 4096)) { s with fb := fb }) ∧
      (∀ px py, pixel fb px py =
        (pixel s.fb px py ^^
          spriteAt s.mem s.i.toNat s.v[x] s.v[y] (4096 - s.i.toNat) px py))) := by
  have hn := n.isLt
  by_cases h : n.val = 0 ∨ s.i.toNat + n.val ≤ 4096
  · obtain ⟨coll, fb, he, hp, hc⟩ := drawRows_go s.v[x] s.v[y] s.i.toNat n.val 0 false s (by omega) (by omega)
    refine .inl ⟨h, coll, fb, ?_, by simpa [spriteRowsAt_zero] using hp,
      by simpa [spriteRowsAt_zero] using hc⟩
    simp only [execDrw, getV, baseAddr, he, Flow.finish]
  · obtain ⟨fb, he, hp⟩ := drawRows_stop s.v[x] s.v[y] s.i.toNat n.val 0 false s (by omega) (by omega) (by omega)
    refine .inr ⟨by omega, by omega, fb, ?_, by simpa [spriteRowsAt_zero] using hp⟩
    simp only [execDrw, getV, baseAddr, he, Flow.finish, raise, Nat.add_zero]

end Sys2Proof.Machine
end

