-- ==== Sys2Proof/Laws/Host.lean ====
section
/-!
SUPPORT. What a call from outside a cycle and an event can do, and the CPU's turn.
-/

namespace Sys2Proof.Machine

/-- What an operation can do: complete, with FAULT as it was and a reply that is no failure, or raise what
the table says. -/
theorem hostOp_cases (c : HostCall) (s : State) :
    (hostFault c = none ∧ ∃ r t, hostOp c s = .ok (r, t) ∧ t.fault = s.fault ∧ ∀ f, r ≠ .failed f) ∨
    (∃ f, hostFault c = some f ∧ hostOp c s = .error f) := by
  cases c with
  | memGet a | memSet a b =>
    by_cases h : a < 4096
    · have : ¬ a > 4095 := by omega
      simp [hostOp, hostFault, asking, changing, memRead, memWrite, Config.memSize, h, this]
    · have : a > 4095 := by omega
      simp [hostOp, hostFault, asking, changing, memRead, memWrite, Config.memSize, h, this]
  | gfxGet x y | gfxSet x y b | gfxDraw x y b =>
    by_cases h : x < 64 ∧ y < 32
    · have : ¬ (x ≥ 64 ∨ y ≥ 32) := by omega
      simp [hostOp, hostFault, asking, changing, drawing, gfxGet, gfxSet, gfxDraw, h]
    · have : x ≥ 64 ∨ y ≥ 32 := by omega
      simp [hostOp, hostFault, asking, changing, drawing, gfxGet, gfxSet, gfxDraw, h, this]
  | keyPress k | keyRelease k | keyIsPressed k | regGet k | regSet k b =>
    by_cases h : k < 16
    · simp [hostOp, hostFault, asking, changing, keyPress, keyRelease, keyIsPressed, regGet, regSet, h]
    · simp [hostOp, hostFault, asking, changing, keyPress, keyRelease, keyIsPressed, regGet, regSet, h,
        Nat.le_of_not_lt h]
  | gfxClear | timerGet t => simp [hostOp, hostFault, asking, changing]
  | timerSet t b | timerTick t => cases t <;> simp [hostOp, hostFault, changing, timerTick]

theorem hostCall_of_ok {c : HostCall} {s : State} {p : Reply × State} (h : hostOp c s = .ok p) :
    hostCall c s = p := by
  simp only [hostCall, h]

theorem hostCall_of_error {c : HostCall} {s : State} {f : Fault} (h : hostOp c s = .error f) :
    hostCall c s = (.failed f, recordFault f s) := by
  simp only [hostCall, h]

/-- A query that the operation answers changes nothing. -/
theorem hostOp_query {q : Query} {s : State} {p : Reply × State} (h : hostOp q.call s = .ok p) :
    p.2 = s := by
  have ask : ∀ {α : Type} {mk : α → Reply} {r : Except Fault α}, asking mk r s = .ok p → p.2 = s := by
    intro α mk r h
    cases r with
    | ok a => cases h; rfl
    | error f => cases h
  cases q <;> exact ask h

/-! ### Events, each by the operation it calls -/

@[simp] theorem deliver_tick (t : Timer) (s : State) : deliver (.tick t) s = .next (timerTick t s) := rfl

theorem deliver_keyPress {k : Nat} (h : k < 16) (s : State) : deliver (.keyPress k) s =
    .next { s with key := s.key.set k true, anyKey := true, lastKey := ⟨k, h⟩ } := by
  simp [deliver, Event.call, hostCall, hostOp, changing, keyPress, h]

theorem deliver_keyRelease {k : Nat} (h : k < 16) (s : State) : deliver (.keyRelease k) s =
    .next { s with key := s.key.set k false, anyKey := false } := by
  simp [deliver, Event.call, hostCall, hostOp, changing, keyRelease, h]

/-- An event whose operation raises records the fault and changes nothing else. -/
theorem deliver_of_hostFault {e : Event} {f : Fault} (h : hostFault e.call = some f) (s : State) :
    deliver e s = .next (recordFault f s) := by
  rcases hostOp_cases e.call s with ⟨h0, -⟩ | ⟨g, hg, he⟩
  · simp [h0] at h
  · rw [hg] at h
    cases h
    rw [deliver, hostCall_of_error he]

/-- A query in range changes nothing. -/
theorem deliver_query {q : Query} (h : hostFault q.call = none) (s : State) :
    deliver (.query q) s = .next s := by
  rcases hostOp_cases q.call s with ⟨-, r, t, he, -⟩ | ⟨g, hg, -⟩
  · rw [deliver, Event.call, hostCall_of_ok he, hostOp_query he]
  · simp [hg] at h

/-! ### The CPU's turn -/

theorem step_of_cpuTurn {s : State} {rest : List Turn} (h : CpuTurn s rest) :
    step s = cycle { s with agenda := rest } := by
  rcases h with h | ⟨h, rfl⟩
  · exact step_of_agenda_cycle h
  · rw [step_of_agenda_nil h, ← h]

/-- A cycle from a state that fetches `op` runs it. -/
theorem cycle_of_fetches {s : State} {op : Word} (h : Fetches s op) :
    cycle s = decodeExecute op (fetched op s) := by
  obtain ⟨hf, hp, hh, hl⟩ := h
  have : fetchWord (beginCycle s) = .ok op := fetchWord_of_bytes (s := beginCycle s) hp hh hl
  simp only [cycle, hf, this]

end Sys2Proof.Machine
end

