-- ==== Sys2Proof/Laws/PerInstr.lean ====
section
/-!
SUPPORT. Statements about every instruction as syntax, one lemma per constructor.
-/

namespace Sys2Proof.Laws.Encoding

/-- The word the encoder gives the instruction is none of the invalid words of 30_encoding.md R76. -/
def Statement (i : Instr) : Prop := wellFormed (encode i) = true

/-- The number of a word of form `NNN` in a family without invalid words is well formed. -/
theorem formNNN_wellFormed {t : Nat} (ht : t < 16) (h : t ≠ 0x0 ∧ t ≠ 0x5 ∧ t ≠ 0x8 ∧ t ≠ 0x9 ∧
    t ≠ 0xE ∧ t ≠ 0xF) (nnn : Addr12) : wellFormed (formNNN t nnn) = true := by
  have hn := nnn.isLt
  have hd : (t * 0x1000 + nnn.toNat) / 0x1000 = t := by omega
  simp [wellFormed, formNNN_toNat ht, hd, h]

theorem formXNN_wellFormed {t : Nat} (ht : t < 16) (h : t ≠ 0x0 ∧ t ≠ 0x5 ∧ t ≠ 0x8 ∧ t ≠ 0x9 ∧
    t ≠ 0xE ∧ t ≠ 0xF) (x : Reg) (nn : Byte) : wellFormed (formXNN t x nn) = true := by
  have hn := nn.isLt
  have hx := x.isLt
  have hd : (t * 0x1000 + x.val * 0x100 + nn.toNat) / 0x1000 = t := by omega
  simp [wellFormed, formXNN_toNat ht, hd, h]

/-- The top number and the low byte of a word of form `X`. -/
theorem formXNN_parts {t : Nat} (ht : t < 16) (x : Reg) (nn : Byte) :
    (formXNN t x nn).toNat / 0x1000 = t ∧ (formXNN t x nn).toNat % 0x100 = nn.toNat := by
  have hn := nn.isLt
  have hx := x.isLt
  rw [formXNN_toNat ht]
  omega

/-- The top number and the low nibble of a word of form `XY` or `XYN`. -/
theorem formXYN_parts {t : Nat} (ht : t < 16) (x y n : Fin 16) :
    (formXYN t x y n).toNat / 0x1000 = t ∧ (formXYN t x y n).toNat % 0x10 = n.val := by
  have hx := x.isLt
  have hy := y.isLt
  have hn := n.isLt
  rw [formXYN_toNat ht]
  omega

theorem cls : Statement .cls := by
  unfold Statement
  decide

theorem ret : Statement .ret := by
  unfold Statement
  decide

theorem jp (nnn : Addr12) : Statement (.jp nnn) := 
  formNNN_wellFormed (by decide) (by decide) nnn

theorem call (nnn : Addr12) : Statement (.call nnn) := 
  formNNN_wellFormed (by decide) (by decide) nnn

theorem seImm (x : Reg) (nn : Byte) : Statement (.seImm x nn) := 
  formXNN_wellFormed (by decide) (by decide) x nn

theorem sneImm (x : Reg) (nn : Byte) : Statement (.sneImm x nn) := 
  formXNN_wellFormed (by decide) (by decide) x nn

theorem seReg (x y : Reg) : Statement (.seReg x y) := by
  obtain ⟨h1, h2⟩ := formXYN_parts (t := 0x5) (by decide) x y 0x0
  simp [Statement, encode, wellFormed, wellFormed59, h1, h2]

theorem ldImm (x : Reg) (nn : Byte) : Statement (.ldImm x nn) := 
  formXNN_wellFormed (by decide) (by decide) x nn

theorem addImm (x : Reg) (nn : Byte) : Statement (.addImm x nn) := 
  formXNN_wellFormed (by decide) (by decide) x nn

theorem ldReg (x y : Reg) : Statement (.ldReg x y) := by
  obtain ⟨h1, h2⟩ := formXYN_parts (t := 0x8) (by decide) x y 0x0
  simp [Statement, encode, wellFormed, wellFormed8, h1, h2]

theorem orReg (x y : Reg) : Statement (.orReg x y) := by
  obtain ⟨h1, h2⟩ := formXYN_parts (t := 0x8) (by decide) x y 0x1
  simp [Statement, encode, wellFormed, wellFormed8, h1, h2]

theorem andReg (x y : Reg) : Statement (.andReg x y) := by
  obtain ⟨h1, h2⟩ := formXYN_parts (t := 0x8) (by decide) x y 0x2
  simp [Statement, encode, wellFormed, wellFormed8, h1, h2]

theorem xorReg (x y : Reg) : Statement (.xorReg x y) := by
  obtain ⟨h1, h2⟩ := formXYN_parts (t := 0x8) (by decide) x y 0x3
  simp [Statement, encode, wellFormed, wellFormed8, h1, h2]

theorem addReg (x y : Reg) : Statement (.addReg x y) := by
  obtain ⟨h1, h2⟩ := formXYN_parts (t := 0x8) (by decide) x y 0x4
  simp [Statement, encode, wellFormed, wellFormed8, h1, h2]

theorem sub (x y : Reg) : Statement (.sub x y) := by
  obtain ⟨h1, h2⟩ := formXYN_parts (t := 0x8) (by decide) x y 0x5
  simp [Statement, encode, wellFormed, wellFormed8, h1, h2]

theorem shr (x y : Reg) : Statement (.shr x y) := by
  obtain ⟨h1, h2⟩ := formXYN_parts (t := 0x8) (by decide) x y 0x6
  simp [Statement, encode, wellFormed, wellFormed8, h1, h2]

theorem subn (x y : Reg) : Statement (.subn x y) := by
  obtain ⟨h1, h2⟩ := formXYN_parts (t := 0x8) (by decide) x y 0x7
  simp [Statement, encode, wellFormed, wellFormed8, h1, h2]

theorem shl (x y : Reg) : Statement (.shl x y) := by
  obtain ⟨h1, h2⟩ := formXYN_parts (t := 0x8) (by decide) x y 0xE
  simp [Statement, encode, wellFormed, wellFormed8, h1, h2]

theorem sneReg (x y : Reg) : Statement (.sneReg x y) := by
  obtain ⟨h1, h2⟩ := formXYN_parts (t := 0x9) (by decide) x y 0x0
  simp [Statement, encode, wellFormed, wellFormed59, h1, h2]

theorem ldI (nnn : Addr12) : Statement (.ldI nnn) := 
  formNNN_wellFormed (by decide) (by decide) nnn

theorem jpV0 (nnn : Addr12) : Statement (.jpV0 nnn) := 
  formNNN_wellFormed (by decide) (by decide) nnn

theorem rnd (x : Reg) (nn : Byte) : Statement (.rnd x nn) := 
  formXNN_wellFormed (by decide) (by decide) x nn

theorem drw (x y : Reg) (n : Fin 16) : Statement (.drw x y n) := by
  obtain ⟨h1, h2⟩ := formXYN_parts (t := 0xD) (by decide) x y n
  simp [Statement, encode, wellFormed, h1]

theorem skp (x : Reg) : Statement (.skp x) := by
  obtain ⟨h1, h2⟩ := formXNN_parts (t := 0xE) (by decide) x 0x9E#8
  simp [Statement, encode, wellFormed, wellFormedE, h1, h2]

theorem sknp (x : Reg) : Statement (.sknp x) := by
  obtain ⟨h1, h2⟩ := formXNN_parts (t := 0xE) (by decide) x 0xA1#8
  simp [Statement, encode, wellFormed, wellFormedE, h1, h2]

theorem ldVxDt (x : Reg) : Statement (.ldVxDt x) := by
  obtain ⟨h1, h2⟩ := formXNN_parts (t := 0xF) (by decide) x 0x07#8
  simp [Statement, encode, wellFormed, wellFormedF, h1, h2]

theorem ldVxK (x : Reg) : Statement (.ldVxK x) := by
  obtain ⟨h1, h2⟩ := formXNN_parts (t := 0xF) (by decide) x 0x0A#8
  simp [Statement, encode, wellFormed, wellFormedF, h1, h2]

theorem ldDtVx (x : Reg) : Statement (.ldDtVx x) := by
  obtain ⟨h1, h2⟩ := formXNN_parts (t := 0xF) (by decide) x 0x15#8
  simp [Statement, encode, wellFormed, wellFormedF, h1, h2]

theorem ldStVx (x : Reg) : Statement (.ldStVx x) := by
  obtain ⟨h1, h2⟩ := formXNN_parts (t := 0xF) (by decide) x 0x18#8
  simp [Statement, encode, wellFormed, wellFormedF, h1, h2]

theorem addI (x : Reg) : Statement (.addI x) := by
  obtain ⟨h1, h2⟩ := formXNN_parts (t := 0xF) (by decide) x 0x1E#8
  simp [Statement, encode, wellFormed, wellFormedF, h1, h2]

theorem ldF (x : Reg) : Statement (.ldF x) := by
  obtain ⟨h1, h2⟩ := formXNN_parts (t := 0xF) (by decide) x 0x29#8
  simp [Statement, encode, wellFormed, wellFormedF, h1, h2]

theorem ldB (x : Reg) : Statement (.ldB x) := by
  obtain ⟨h1, h2⟩ := formXNN_parts (t := 0xF) (by decide) x 0x33#8
  simp [Statement, encode, wellFormed, wellFormedF, h1, h2]

theorem stRegs (x : Reg) : Statement (.stRegs x) := by
  obtain ⟨h1, h2⟩ := formXNN_parts (t := 0xF) (by decide) x 0x55#8
  simp [Statement, encode, wellFormed, wellFormedF, h1, h2]

theorem ldRegs (x : Reg) : Statement (.ldRegs x) := by
  obtain ⟨h1, h2⟩ := formXNN_parts (t := 0xF) (by decide) x 0x65#8
  simp [Statement, encode, wellFormed, wellFormedF, h1, h2]

end Sys2Proof.Laws.Encoding
end

