-- ==== Sys2Proof/Tests/Slice0.lean ====
section
/-!
SUPPORT. Tests of one decode or one step each, with expected results from spec/ (95_test_vectors.md T-…,
30_encoding.md), and the witnesses that the statements' hypotheses can be met.
-/

namespace Sys2Proof.Tests

open Sys2Proof.Machine

/-! ### Helpers -/

/-- `s` with some registers set. -/
def withV (l : List (Reg × Byte)) (s : State) : State := l.foldl (fun t p => setV p.1 p.2 t) s

/-- `s` with some bytes of memory set. -/
def withM (l : List Host.Cell) (s : State) : State :=
  l.foldl (fun t c => { t with mem := t.mem.write c.1 c.2 }) s

/-- The next state, where the step answers one. -/
def next? (s : State) : Option State :=
  match step s with
  | .next t => some t
  | .fault _ => none
  | .refused _ => none

/-- The state after one step that runs the word `op` from `s`. -/
def after (op : Nat) (s : State) : Option State := next? (s.withFetchWord 16 op)

/-- The state after reset. -/
abbrev s0 : State := State.reset

/-! ### Well-formedness: one ill-formed word for each check (30_encoding.md R76), and its neighbour -/

theorem test_wf_family0 : wellFormed 0x01E0#16 = false ∧ wellFormed 0x00E0#16 = true := by decide
theorem test_wf_family5 : wellFormed 0x5121#16 = false ∧ wellFormed 0x5120#16 = true := by decide
theorem test_wf_family8 : wellFormed 0x8128#16 = false ∧ wellFormed 0x812E#16 = true := by decide
theorem test_wf_family9 : wellFormed 0x9121#16 = false ∧ wellFormed 0x9120#16 = true := by decide
theorem test_wf_familyE : wellFormed 0xE19F#16 = false ∧ wellFormed 0xE19E#16 = true := by decide
theorem test_wf_familyF : wellFormed 0xF1FF#16 = false ∧ wellFormed 0xF10A#16 = true := by decide

/-! ### Decoding: for every constructor a word written out from 30_encoding.md R75 -/

theorem test_decode_cls : decode 0b0000000011100000#16 = .ok (.cls) := by rfl
theorem test_decode_ret : decode 0b0000000011101110#16 = .ok (.ret) := by rfl
theorem test_decode_jp : decode 0b0001001101000101#16 = .ok (.jp 0x345) := by rfl
theorem test_decode_call : decode 0b0010111100000001#16 = .ok (.call 0xF01) := by rfl
theorem test_decode_seImm : decode 0b0011101001000010#16 = .ok (.seImm 0xA 0x42) := by rfl
theorem test_decode_sneImm : decode 0b0100000111111110#16 = .ok (.sneImm 0x1 0xFE) := by rfl
theorem test_decode_seReg : decode 0b0101001001110000#16 = .ok (.seReg 0x2 0x7) := by rfl
theorem test_decode_ldImm : decode 0b0110111100010010#16 = .ok (.ldImm 0xF 0x12) := by rfl
theorem test_decode_addImm : decode 0b0111010111110000#16 = .ok (.addImm 0x5 0xF0) := by rfl
theorem test_decode_ldReg : decode 0b1000000100100000#16 = .ok (.ldReg 0x1 0x2) := by rfl
theorem test_decode_orReg : decode 0b1000001101000001#16 = .ok (.orReg 0x3 0x4) := by rfl
theorem test_decode_andReg : decode 0b1000010101100010#16 = .ok (.andReg 0x5 0x6) := by rfl
theorem test_decode_xorReg : decode 0b1000011110000011#16 = .ok (.xorReg 0x7 0x8) := by rfl
theorem test_decode_addReg : decode 0b1000100110100100#16 = .ok (.addReg 0x9 0xA) := by rfl
theorem test_decode_sub : decode 0b1000101111000101#16 = .ok (.sub 0xB 0xC) := by rfl
theorem test_decode_shr : decode 0b1000110111100110#16 = .ok (.shr 0xD 0xE) := by rfl
theorem test_decode_subn : decode 0b1000111100000111#16 = .ok (.subn 0xF 0x0) := by rfl
theorem test_decode_shl : decode 0b1000000111111110#16 = .ok (.shl 0x1 0xF) := by rfl
theorem test_decode_sneReg : decode 0b1001001000110000#16 = .ok (.sneReg 0x2 0x3) := by rfl
theorem test_decode_ldI : decode 0b1010101111001101#16 = .ok (.ldI 0xBCD) := by rfl
theorem test_decode_jpV0 : decode 0b1011001000010000#16 = .ok (.jpV0 0x210) := by rfl
theorem test_decode_rnd : decode 0b1100000100001111#16 = .ok (.rnd 0x1 0x0F) := by rfl
theorem test_decode_drw : decode 0b1101000100100101#16 = .ok (.drw 0x1 0x2 0x5) := by rfl
theorem test_decode_skp : decode 0b1110010010011110#16 = .ok (.skp 0x4) := by rfl
theorem test_decode_sknp : decode 0b1110010110100001#16 = .ok (.sknp 0x5) := by rfl
theorem test_decode_ldVxDt : decode 0b1111000100000111#16 = .ok (.ldVxDt 0x1) := by rfl
theorem test_decode_ldVxK : decode 0b1111001000001010#16 = .ok (.ldVxK 0x2) := by rfl
theorem test_decode_ldDtVx : decode 0b1111001100010101#16 = .ok (.ldDtVx 0x3) := by rfl
theorem test_decode_ldStVx : decode 0b1111010000011000#16 = .ok (.ldStVx 0x4) := by rfl
theorem test_decode_addI : decode 0b1111010100011110#16 = .ok (.addI 0x5) := by rfl
theorem test_decode_ldF : decode 0b1111011000101001#16 = .ok (.ldF 0x6) := by rfl
theorem test_decode_ldB : decode 0b1111011100110011#16 = .ok (.ldB 0x7) := by rfl
theorem test_decode_stRegs : decode 0b1111100001010101#16 = .ok (.stRegs 0x8) := by rfl
theorem test_decode_ldRegs : decode 0b1111100101100101#16 = .ok (.ldRegs 0x9) := by rfl

/-- The most significant byte lies first (30_encoding.md R70; T-C1). -/
theorem test_decode_bytes : decodeBytes [0xAB, 0xCD, 0x12] = .ok (.ldI 0xBCD, [0x12]) := by rfl

/-- T-C1: the fields of ABCD. -/
theorem test_fields : fieldX 0xABCD#16 = 0xB ∧ fieldY 0xABCD#16 = 0xC ∧ fieldN 0xABCD#16 = 0xD ∧
    fieldNN 0xABCD#16 = 0xCD ∧ fieldNNN 0xABCD#16 = 0xBCD := by decide

/-- T-C4 to T-C10: words that are no instruction. -/
theorem test_decode_invalid : [0x5121, 0x0000, 0x01E0, 0x8128, 0x812F, 0x9121, 0xE19F, 0xE100, 0xF1FF,
    0xF185].all (fun w => decodeTableWord 16 w == none) = true := by decide

/-! ### The cycle -/

/-- T-C2: at 0FFE the word is fetched and PC becomes 1000. -/
theorem test_cycle_last_word : (after 0x6A11 { s0 with pc := 0xFFE }).map (fun t => (t.v[10], t.pc)) =
    some (0x11, 0x1000) := by decide

/-- T-C3: at 0FFF the fetch faults and PC and OPCODE keep their values. -/
theorem test_cycle_fetch_faults : step { s0 with pc := 0xFFF, opcode := 0x1234 } =
    .next { s0 with pc := 0xFFF, opcode := 0x1234, fault := some (.addressOutOfRange 0x1000) } := by rfl

/-- T-C6: 01E0 is invalid, PC is past it. -/
theorem test_cycle_invalid : (after 0x01E0 s0).map (fun t => (t.fault, t.pc)) =
    some (some (.invalidInstruction 0x01E0), 0x202) := by decide

/-- T-C11: an odd PC is no fault. -/
theorem test_cycle_odd_pc : (after 0x6B22 { s0 with pc := 0x201 }).map (fun t => (t.v[11], t.pc)) =
    some (0x22, 0x203) := by decide

/-- T-C13: a machine with a fault takes no cycle. -/
theorem test_cycle_stopped : step { s0 with fault := some (.invalidKey 16) } = .fault (.invalidKey 16) := by
  rfl

/-- T-C12: 6000 leaves DRAWFLAG clear. -/
theorem test_cycle_clears_drawFlag : (after 0x6000 { s0 with drawFlag := true }).map (·.drawFlag) =
    some false := by decide

/-! ### Control transfer -/

/-- T-F1. -/
theorem test_ret : (after 0x00EE { s0 with sp := 2, stack := s0.stack.set 1 0x206 }).map (fun t => (t.pc, t.sp.val)) =
    some (0x206, 1) := by decide

/-- T-F2. -/
theorem test_ret_empty : (after 0x00EE s0).map (fun t => (t.fault, t.sp.val, t.pc)) =
    some (some (.stackPointerInvalid 0), 0, 0x202) := by decide

/-- T-F3. -/
theorem test_jp : (after 0x1FFF s0).map (fun t => t.pc) =
    some 0xFFF := by decide

/-- T-F5. -/
theorem test_call : (after 0x2300 s0).map (fun t => (t.sp.val, t.stack[0], t.pc)) =
    some (1, 0x202, 0x300) := by decide

/-- T-F6. -/
theorem test_call_full : (after 0x2300 { s0 with sp := 16 }).map (fun t => (t.fault, t.sp.val, t.pc)) =
    some (some (.stackPointerInvalid 16), 16, 0x202) := by decide

/-- T-F8: the sum is not reduced. -/
theorem test_jpV0_top : (after 0xBFFF (withV [(0, 0xFF)] s0)).map (fun t => t.pc) =
    some 0x10FE := by decide

/-- T-F9: V0, not V2. -/
theorem test_jpV0_is_V0 : (after 0xB210 (withV [(0, 4), (2, 0x99)] s0)).map (fun t => t.pc) =
    some 0x214 := by decide

/-- T-F10. -/
theorem test_seImm_skips : (after 0x3A42 (withV [(10, 0x42)] s0)).map (fun t => t.pc) =
    some 0x204 := by decide

/-- T-F10. -/
theorem test_seImm_not : (after 0x3A42 (withV [(10, 0x41)] s0)).map (fun t => t.pc) =
    some 0x202 := by decide

/-- T-F11. -/
theorem test_sneImm_not : (after 0x4A42 (withV [(10, 0x42)] s0)).map (fun t => t.pc) =
    some 0x202 := by decide

/-- T-F11. -/
theorem test_sneImm_skips : (after 0x4A42 (withV [(10, 0x41)] s0)).map (fun t => t.pc) =
    some 0x204 := by decide

/-- T-F12. -/
theorem test_seReg_skips : (after 0x5120 (withV [(1, 7), (2, 7)] s0)).map (fun t => t.pc) =
    some 0x204 := by decide

/-- T-F12. -/
theorem test_seReg_not : (after 0x5120 (withV [(1, 7), (2, 8)] s0)).map (fun t => t.pc) =
    some 0x202 := by decide

/-- T-F14. -/
theorem test_sneReg_skips : (after 0x9120 (withV [(1, 7), (2, 8)] s0)).map (fun t => t.pc) =
    some 0x204 := by decide

/-- T-F14. -/
theorem test_sneReg_not : (after 0x9120 (withV [(1, 7), (2, 7)] s0)).map (fun t => t.pc) =
    some 0x202 := by decide

/-- T-F16: the skip goes past memory without a fault of its own. -/
theorem test_skip_at_top : (after 0x3000 { s0 with pc := 0xFFE }).map (fun t => (t.pc, t.fault)) =
    some (0x1002, none) := by decide

/-! ### Registers and arithmetic -/

/-- T-A2. -/
theorem test_ldImm_VF : (after 0x6F00 (withV [(15, 1)] s0)).map (fun t => t.v[15]) =
    some 0 := by decide

/-- T-A3. -/
theorem test_addImm_no_flag : (after 0x7001 (withV [(0, 0xFF), (15, 7)] s0)).map (fun t => (t.v[0], t.v[15])) =
    some (0x00, 0x07) := by decide

/-- T-A5. -/
theorem test_ldReg : (after 0x8120 (withV [(2, 0x5A)] s0)).map (fun t => (t.v[1], t.v[2])) =
    some (0x5A, 0x5A) := by decide

/-- T-A6. -/
theorem test_orReg_no_flag : (after 0x8121 (withV [(1, 0xF0), (2, 0x0F), (15, 1)] s0)).map (fun t => (t.v[1], t.v[15])) =
    some (0xFF, 1) := by decide

/-- T-A7. -/
theorem test_andReg : (after 0x8122 (withV [(1, 0xF0), (2, 0x3C)] s0)).map (fun t => t.v[1]) =
    some 0x30 := by decide

/-- T-A8. -/
theorem test_xorReg : (after 0x8123 (withV [(1, 0xF0), (2, 0x3C)] s0)).map (fun t => t.v[1]) =
    some 0xCC := by decide

/-- T-A11. -/
theorem test_addReg_carry : (after 0x8124 (withV [(1, 0xFF), (2, 0xFF)] s0)).map (fun t => (t.v[1], t.v[15])) =
    some (0xFE, 1) := by decide

/-- T-A30: the sum overwrites the flag. -/
theorem test_addReg_VF_dest : (after 0x8F14 (withV [(15, 0xF0), (1, 0x20)] s0)).map (fun t => t.v[15]) =
    some 0x10 := by decide

/-- T-A14: no borrow. -/
theorem test_sub_equal : (after 0x8125 (withV [(1, 0x33), (2, 0x33)] s0)).map (fun t => (t.v[1], t.v[15])) =
    some (0, 1) := by decide

/-- T-A34: VF is read after the flag is written. -/
theorem test_sub_VF_source : (after 0x81F5 (withV [(1, 5), (15, 3)] s0)).map (fun t => (t.v[1], t.v[15])) =
    some (4, 1) := by decide

/-- T-A16. -/
theorem test_shr_takes_Vy : (after 0x8126 (withV [(2, 5), (1, 0xAA)] s0)).map (fun t => (t.v[1], t.v[15], t.v[2])) =
    some (2, 1, 5) := by decide

/-- T-A38. -/
theorem test_shr_VF_source : (after 0x81F6 (withV [(15, 7), (1, 0xAA)] s0)).map (fun t => (t.v[1], t.v[15])) =
    some (0, 1) := by decide

/-- T-A20. -/
theorem test_subn_borrow : (after 0x8127 (withV [(1, 0x34), (2, 0x12)] s0)).map (fun t => (t.v[1], t.v[15])) =
    some (0xDE, 0) := by decide

/-- T-A39. -/
theorem test_subn_VF_dest : (after 0x8F17 (withV [(15, 3), (1, 0x10)] s0)).map (fun t => t.v[15]) =
    some 0x0F := by decide

/-- T-A21. -/
theorem test_shl_takes_Vy : (after 0x812E (withV [(2, 0x81)] s0)).map (fun t => (t.v[1], t.v[15], t.v[2])) =
    some (2, 1, 0x81) := by decide

/-- T-A42. -/
theorem test_shl_VF_source : (after 0x81FE (withV [(15, 0x80)] s0)).map (fun t => (t.v[1], t.v[15])) =
    some (2, 1) := by decide

/-- T-A24: whatever the draw, C10F keeps only the bits of 0F. -/
theorem test_rnd_masks : exec (.rnd 1 0x0F#8) s0 =
    .next { s0 with v := s0.v.set 1 (Config.rnd 0 &&& 0x0F#8), draws := 1 } := by rfl

/-- T-A25: C100 gives 0 for any draw. -/
theorem test_rnd_zero : exec (.rnd 1 0x00#8) (withV [(1, 0x55)] s0) =
    .next { withV [(1, 0x55)] s0 with v := (withV [(1, 0x55)] s0).v.set 1 0x00#8, draws := 1 } := by
  simp [exec, execRnd, setV, countDraw, withV, State.reset]

/-! ### Index register and memory -/

/-- T-M1. -/
theorem test_ldI : (after 0xAFFF s0).map (fun t => (t.i, t.pc)) =
    some (0xFFF, 0x202) := by decide

/-- T-M2: no flag. -/
theorem test_addI_past_12_bits : (after 0xF01E { (withV [(0, 1)] s0) with i := 0xFFF }).map (fun t => (t.i, t.v[15])) =
    some (0x1000, 0) := by decide

/-- T-M3. -/
theorem test_addI_wraps : (after 0xF01E { (withV [(0, 2)] s0) with i := 0xFFFF }).map (fun t => t.i) =
    some 1 := by decide

/-- T-M4. -/
theorem test_ldF_low_nibble : (after 0xF029 (withV [(0, 0x1F)] s0)).map (fun t => t.i) =
    some 0x4B := by decide

/-- T-M5. -/
theorem test_ldB : (after 0xF033 { (withV [(0, 0xFF)] s0) with i := 0x300 }).map (fun t => (t.mem, t.i)) =
    some ([(0x200, 0xF0), (0x201, 0x33), (0x300, 2), (0x301, 5), (0x302, 5)], 0x300) := by decide

/-- T-M6. -/
theorem test_ldB_past_memory : (after 0xF033 { (withV [(0, 0xFF)] s0) with i := 0xFFE }).map (fun t => (t.mem.read 0xFFE, t.mem.read 0xFFF, t.fault, t.i)) =
    some (2, 5, some (.addressOutOfRange 0x1000), 0xFFE) := by decide

/-- T-M7: V3 is not stored. -/
theorem test_stRegs : (after 0xF255 { (withV [(0, 0xAA), (1, 0xBB), (2, 0xCC), (3, 0xDD)] s0) with i := 0x300 }).map (fun t => (t.mem.read 0x300, t.mem.read 0x302, t.mem.read 0x303, t.i)) =
    some (0xAA, 0xCC, 0x00, 0x303) := by decide

/-- T-M9. -/
theorem test_stRegs_past_memory : (after 0xF155 { (withV [(0, 0xAB), (1, 0xCD)] s0) with i := 0xFFF }).map (fun t => (t.mem.read 0xFFF, t.fault, t.i)) =
    some (0xAB, some (.addressOutOfRange 0x1000), 0xFFF) := by decide

/-- T-M10. -/
theorem test_ldRegs : (after 0xF265 { withM [(0x300, 1), (0x301, 2), (0x302, 5)] (withV [(3, 0x99)] s0) with i := 0x300 }).map (fun t => (t.v[0], t.v[1], t.v[2], t.v[3], t.i)) =
    some (1, 2, 5, 0x99, 0x303) := by decide

/-- T-M11. -/
theorem test_ldRegs_past_memory : (after 0xF265 { withM [(0xFFE, 0x11), (0xFFF, 0x22)] (withV [(2, 0x99)] s0) with i := 0xFFE }).map (fun t => (t.v[0], t.v[1], t.v[2], t.fault, t.i)) =
    some (0x11, 0x22, 0x99, some (.addressOutOfRange 0x1000), 0xFFE) := by decide

/-! ### Display -/

/-- T-D10. -/
theorem test_cls : (after 0x00E0 { s0 with fb := setPixel s0.fb 63 31 true }).map (fun t => (pixel t.fb 63 31, t.drawFlag)) =
    some (false, true) := by decide

/-- T-D2: columns 62, 63, 0 to 5. -/
theorem test_drw_wraps : (after 0xD121 { withM [(0x300, 0xFF)] (withV [(1, 0x3E)] s0) with i := 0x300 }).map (fun t => ([61, 62, 63, 0, 5, 6].map fun x => pixel t.fb x 0, t.v[15])) =
    some ([false, true, true, true, true, false], 0) := by decide

/-- T-D8. -/
theorem test_drw_past_memory : (after 0xD003 { withM [(0xFFE, 0x80), (0xFFF, 0x80)] (withV [(15, 0x55)] s0) with i := 0xFFE }).map (fun t => (pixel t.fb 0 0, pixel t.fb 0 1, t.v[15], t.drawFlag, t.fault)) =
    some (true, true, 0x55, false, some (.addressOutOfRange 0x1000)) := by decide

/-! ### Keypad and timers -/

/-- T-K1. -/
theorem test_skp : (after 0xE09E { (withV [(0, 5)] s0) with key := s0.key.set 5 true }).map (fun t => t.pc) =
    some 0x204 := by decide

/-- T-K2: key 21 does not exist. -/
theorem test_skp_no_such_key : (after 0xE09E { (withV [(0, 0x15)] s0) with key := s0.key.set 5 true }).map (fun t => (t.pc, t.fault)) =
    some (0x202, none) := by decide

/-- T-K3. -/
theorem test_sknp : (after 0xE0A1 { (withV [(0, 5)] s0) with key := s0.key.set 5 true }).map (fun t => t.pc) =
    some 0x202 := by decide

/-- T-K4. -/
theorem test_sknp_no_such_key : (after 0xE0A1 (withV [(0, 0xFF)] s0)).map (fun t => (t.pc, t.fault)) =
    some (0x204, none) := by decide

/-- T-K6: FX0A with ANYKEY clear comes back to itself. -/
theorem test_ldVxK_waits : (after 0xF10A s0).map (fun t => (t.pc, t.v[1])) =
    some (0x200, 0) := by decide

/-- T-K7. -/
theorem test_ldVxK : (after 0xF10A { s0 with anyKey := true, lastKey := 5 }).map (fun t => (t.v[1], t.pc)) =
    some (5, 0x202) := by decide

/-- T-K10. -/
theorem test_ldVxDt : (after 0xF107 { s0 with dt := 0x3C }).map (fun t => (t.v[1], t.dt)) =
    some (0x3C, 0x3C) := by decide

/-- T-K11. -/
theorem test_ldDtVx : (after 0xF015 (withV [(0, 5)] s0)).map (fun t => t.dt) =
    some 5 := by decide

/-- T-K12. -/
theorem test_ldStVx : (after 0xF318 (withV [(3, 2)] s0)).map (fun t => (t.st, buzz t)) =
    some (2, true) := by decide

/-- T-K14: the timers tick separately. -/
theorem test_tick_delay : next? { s0 with dt := 5, st := 5, agenda := [.event (.tick .delay)] } =
    some { s0 with dt := 4, st := 5 } := by decide

/-- T-K13: a timer at 0 stays at 0. -/
theorem test_tick_zero : next? { s0 with agenda := [.event (.tick .sound)] } = some s0 := by decide

/-- T-K9: the keypad is unchanged and the error recorded. -/
theorem test_key_press_bad : next? { s0 with agenda := [.event (.keyPress 16)] } =
    some { s0 with fault := some (.invalidKey 16) } := by decide

/-- T-K5: releasing key 5 clears ANYKEY though key 3 is down. -/
theorem test_key_release : next? { s0 with
      key := (s0.key.set 3 true).set 5 true, anyKey := true, lastKey := 5,
      agenda := [.event (.keyRelease 5)] } =
    some { s0 with key := s0.key.set 3 true, anyKey := false, lastKey := 5 } := by decide

/-! ### Host operations -/

/-- T-D11: the truth table of a draw. -/
theorem test_draw_table :
    ((drawPixel blankScreen 3 4 false).1, pixel (drawPixel blankScreen 3 4 false).2 3 4) = (false, false) ∧
    ((drawPixel blankScreen 3 4 true).1, pixel (drawPixel blankScreen 3 4 true).2 3 4) = (false, true) ∧
    (let f := setPixel blankScreen 3 4 true
     ((drawPixel f 3 4 false).1, pixel (drawPixel f 3 4 false).2 3 4) = (false, true) ∧
     ((drawPixel f 3 4 true).1, pixel (drawPixel f 3 4 true).2 3 4) = (true, false)) := by decide

/-- T-X1, T-X2, T-X3, T-X6. -/
theorem test_host_queries :
    gfxGet 63 31 s0 = .ok false ∧ gfxGet 0 32 s0 = .error (.coordinateOutOfRange 0 32) ∧
    gfxSet 64 0 true s0 = .error (.coordinateOutOfRange 64 0) ∧
    keyIsPressed 16 s0 = .error (.invalidKey 16) := ⟨rfl, rfl, rfl, rfl⟩

/-- T-X5: reported to the caller, and recorded (60_exceptions.md R160). -/
theorem test_regSet_bad : hostCall (.regSet 16 0#8) s0 =
    (.failed (.registerIndexInvalid 16), { s0 with fault := some (.registerIndexInvalid 16) }) := rfl

/-- T-X4. -/
theorem test_regSet_regGet : (hostCall (.regGet 3) (hostCall (.regSet 3 0x7F#8) s0).2).1 = .byte 0x7F#8 := rfl

/-- T-X2 as a step: the screen is unchanged and the fault recorded. -/
theorem test_pixel_query_bad : next? { s0 with agenda := [.event (.query (.pixel 0 32))] } =
    some { s0 with fault := some (.coordinateOutOfRange 0 32) } := by decide

/-- 20_memory.md R67: a `set` past memory faults like any other, and the CPU then takes no cycle. -/
theorem test_mem_set_bad : hostCall (.memSet 4096 0x55#8) s0 =
      (.failed (.addressOutOfRange 4096), { s0 with fault := some (.addressOutOfRange 4096) }) ∧
    step { s0 with fault := some (.addressOutOfRange 4096) } = .fault (.addressOutOfRange 4096) :=
  ⟨rfl, rfl⟩

/-- T-X7, T-X8: memory after reset. -/
theorem test_reset_memory : s0.mem.read 0x000 = 0xF0 ∧ s0.mem.read 0x050 = 0x00 ∧
    s0.mem.read 0x1FF = 0x00 := by decide

/-- T-X9, and the image at 0x200 (70_reset_and_hazards.md R203). -/
theorem test_boot : (match boot font [0x12, 0x00] with
    | .next t => some (t.pc, t.sp.val, t.mem)
    | .fault _ => none
    | .refused _ => none) = some (0x200, 0, [(0x200, 0x12)]) := by decide +kernel

/-! ### Witnesses: for each statement with hypotheses, a state and operands that meet them

Named `test_meets_<statement>`; a statement with several clauses has each clause met, at the boundary. -/

/-- A word meets the pattern of a row, and another does not (for the clauses `Encodes`). -/
theorem test_meets_Encodes : 0x5120#16 &&& 0xF00F#16 = 0x5000#16 ∧
    decode 0x5120#16 = .ok (.seReg (fieldX 0x5120#16) (fieldY 0x5120#16)) ∧
    0x5121#16 &&& 0xF00F#16 ≠ 0x5000#16 := ⟨by decide, rfl, by decide⟩

theorem test_meets_NeedsLowNibbleZero :
    (0x5121#16 &&& 0xF000#16 = 0x5000#16 ∧ 0x5121#16 &&& 0x000F#16 ≠ 0#16) ∧
    (0x912F#16 &&& 0xF000#16 = 0x9000#16 ∧ 0x912F#16 &&& 0x000F#16 ≠ 0#16) := by decide

/-- The CPU has the turn with an empty agenda and with a cycle at its head. -/
theorem test_meets_CpuTurn : CpuTurn s0 [] ∧
    CpuTurn { s0 with agenda := [.cycle, .event (.tick .delay)] } [.event (.tick .delay)] ∧
    ¬ ∃ rest, CpuTurn { s0 with agenda := [.event (.tick .delay)] } rest :=
  ⟨.inr ⟨rfl, rfl⟩, .inl rfl, by simp [CpuTurn]⟩

theorem test_meets_EachInstructionHasOneWord : decode 0xFF65#16 = .ok (.ldRegs 0xF) := rfl

/-- Each of the two verdicts occurs. -/
theorem test_meets_InvalidWordsAreTheListedOnes :
    decode 0x01E0#16 = .error (.invalidInstruction 0x01E0#16) ∧ wellFormed 0x01E0#16 = false ∧
    decode 0xFF65#16 = .ok (.ldRegs 0xF) ∧ wellFormed 0xFF65#16 = true := ⟨rfl, rfl, rfl, rfl⟩

/-- 6A11 at 0FFE, the last address it can be fetched from, with an empty agenda and with a cycle on it. -/
theorem test_meets_StepRunsTheDecodedInstruction :
    let s := { s0 with pc := 0xFFE }.withFetchWord 16 0x6A11
    (Fetches s 0x6A11#16 ∧ decode 0x6A11#16 = .ok (.ldImm 0xA 0x11) ∧ s.agenda = []) ∧
    (Fetches { s with agenda := [.cycle] } 0x6A11#16 ∧ { s with agenda := [.cycle] }.agenda = .cycle :: []) := by
  refine ⟨⟨⟨?_, ?_, ?_, ?_⟩, rfl, ?_⟩, ⟨?_, ?_, ?_, ?_⟩, ?_⟩ <;> decide

theorem test_meets_TwoByteReadIsBigEndian : memReadWord 4094 s0 = .ok 0 ∧
    memReadWord 4095 s0 = .error (.addressOutOfRange 4096) ∧
    memReadWord 65535 s0 = .error (.addressOutOfRange 65535) ∧ memReadWord 0 s0 = .ok 0xF090 :=
  ⟨rfl, rfl, rfl, rfl⟩

/-- PC at 4094 with an empty agenda, and at 4095 and 4096 with a cycle at its head. -/
theorem test_meets_FetchReadsWordAndAdvancesPc :
    (let s := { s0 with pc := 0xFFE }
     s.fault = none ∧ CpuTurn s [] ∧ s.pc.toNat ≤ 4094) ∧
    (let s := { s0 with pc := 0xFFF, agenda := [.cycle] }
     s.fault = none ∧ CpuTurn s [] ∧ s.pc.toNat = 4095) ∧
    (let s := { s0 with pc := 0x1000, agenda := [.cycle] }
     s.fault = none ∧ CpuTurn s [] ∧ s.pc.toNat ≥ 4096) :=
  ⟨⟨rfl, .inr ⟨rfl, rfl⟩, by decide⟩, ⟨rfl, .inl rfl, by decide⟩, rfl, .inl rfl, by decide⟩

/-- The word 0000 at reset, with an empty agenda and with a cycle at its head. -/
theorem test_meets_InvalidWordRaisesInvalidInstruction :
    (Fetches s0 0x0000#16 ∧ CpuTurn s0 []) ∧
    (Fetches { s0 with agenda := [.cycle] } 0x0000#16 ∧ CpuTurn { s0 with agenda := [.cycle] } []) ∧
    ∀ i, decode 0x0000#16 ≠ .ok i :=
  ⟨⟨⟨rfl, by decide, by decide, by decide⟩, .inr ⟨rfl, rfl⟩⟩,
    ⟨⟨rfl, by decide, by decide, by decide⟩, .inl rfl⟩,
    fun i h => by simp [decode, decode0, family] at h⟩

/-- Each of the three clauses, on a machine that an empty stack has stopped. -/
theorem test_meets_StoppedMachineTakesNoCycle :
    let s := { s0 with fault := some (.stackPointerInvalid 0) }
    (s.fault = some (.stackPointerInvalid 0) ∧ s.agenda = []) ∧
    { s with agenda := [.cycle] }.agenda = .cycle :: [] ∧
    { s with agenda := [.event (.keyPress 16)] }.agenda = .event (.keyPress 16) :: [] := by decide

/-- A cycle that draws, and one that raises while drawing. -/
theorem test_meets_DrawFlagTellsWhetherTheCycleDrew :
    (let s := s0.withFetchWord 16 0x00E0
     Fetches s 0x00E0#16 ∧ CpuTurn s [] ∧ (next? s).map (fun t => (t.fault, t.drawFlag)) = some (none, true)) ∧
    (let s := { s0 with i := 0xFFF }.withFetchWord 16 0xD002
     Fetches s 0xD002#16 ∧ CpuTurn s [] ∧ (next? s).map (fun t => (t.fault, t.drawFlag)) =
      some (some (.addressOutOfRange 4096), false)) := by
  refine ⟨⟨⟨?_, ?_, ?_, ?_⟩, .inr ⟨rfl, rfl⟩, ?_⟩, ⟨?_, ?_, ?_, ?_⟩, .inr ⟨rfl, rfl⟩, ?_⟩ <;> decide

/-- No fault is recorded; and the rows of the table at the last good and the first bad address. -/
theorem test_meets_InstructionsFaultExactlyAsTabled : s0.fault = none ∧
    faultOf (.ldB 0) { s0 with i := 0xFFD } = none ∧
    faultOf (.ldB 0) { s0 with i := 0xFFE } = some (.addressOutOfRange 4096) ∧
    faultOf (.drw 0 0 0) { s0 with i := 0xFFFF } = none ∧
    faultOf (.drw 0 0 1) { s0 with i := 0xFFFF } = some (.addressOutOfRange 65535) := by decide

/-- A cycle that raises, by itself and from the agenda. -/
theorem test_meets_CycleRaisesOnlyThreeKinds :
    let s := s0.withFetchWord 16 0x00EE
    (s.fault = none ∧ CpuTurn s [] ∧ (next? s).map (·.fault) = some (some (.stackPointerInvalid 0))) ∧
    CpuTurn { s with agenda := [.cycle] } [] ∧
    (next? { s with agenda := [.cycle] }).map (·.fault) = some (some (.stackPointerInvalid 0)) :=
  ⟨⟨by decide, .inr ⟨rfl, rfl⟩, by decide⟩, .inl rfl, by decide⟩

/-- A step from a state with the invariant. -/
theorem test_meets_EveryStepKeepsTheInvariant : Inv { s0 with agenda := [.event (.keyPress 7)] } ∧
    (next? { s0 with agenda := [.event (.keyPress 7)] }).isSome = true :=
  ⟨⟨by decide, by decide, by decide, by decide⟩, by decide⟩

/-- The last cell, and the first address past it. -/
theorem test_meets_MemoryReadsBackWhatWasWritten : (4095 ≤ 4095 ∧ memRead 4095 s0 = .ok 0x00) ∧
    (4096 > 4095 ∧ memRead 4096 s0 = .error (.addressOutOfRange 4096)) :=
  ⟨⟨by decide, rfl⟩, by decide, rfl⟩

/-- FX55 over PC at the top of memory, and FX33 whose last digit alone falls on the next word. -/
theorem test_meets_NextFetchSeesAStore :
    (let s := { s0 with pc := 0xFFE, i := 0xFF0 }
     s.i.toNat + (15 : Reg).val ≤ 4095 ∧ s.pc.toNat ≤ 4094 ∧ s.fault = none) ∧
    (let s := { s0 with pc := 0x302, i := 0x300 }
     s.i.toNat + 2 ≤ 4095 ∧ s.pc.toNat ≤ 4094 ∧ s.fault = none) ∧ CpuTurn s0 [] :=
  ⟨by decide, by decide, .inr ⟨rfl, rfl⟩⟩

/-- T-F7's second call, made inside the first, leaves the first call's slot. -/
theorem test_nested_call : (after 0x2208 { s0 with sp := 1, stack := s0.stack.set 0 0x202 }).map
    (fun t => (t.sp.val, t.stack[0], t.stack[1])) = some (2, 0x202, 0x202) := by decide

/-- CLS: no stack, no PC, no I, no VF, neither timer; and it answers a next state. For
OnlyCallAndReturnTouchTheStack, OtherInstructionsFallThrough, OnlyIndexInstructionsWriteI,
UntabledRegistersAreIrrelevant, TicksCommuteWithOtherInstructions and InstructionsIgnoreTheAgenda. -/
theorem test_meets_frames : Instr.usesStack .cls = false ∧ Instr.writesPc .cls = false ∧
    Instr.writesI .cls = false ∧ Instr.writesV 0xF .cls = false ∧ Instr.readsV 0xF .cls = false ∧
    Instr.usesTimer .delay .cls = false ∧ Instr.usesTimer .sound .cls = false ∧
    exec .cls s0 = .next { s0 with drawFlag := true } := ⟨rfl, rfl, rfl, rfl, rfl, rfl, rfl, rfl⟩

/-- An address just below and just above the bytes stored. -/
theorem test_meets_OnlyStoredBytesChange : (exec (.ldB 0) { s0 with i := 0x300 } = .next
      { s0 with i := 0x300 }) ∧ ¬ (0x300 ≤ 0x2FF ∧ 0x2FF < 0x300 + Instr.storeCount (.ldB 0)) ∧
    ¬ (0x300 ≤ 0x303 ∧ 0x303 < 0x300 + Instr.storeCount (.ldB 0)) := ⟨rfl, by decide, by decide⟩

/-- A register FX65 with X = 14 neither reads nor writes. -/
theorem test_meets_RegistersChangeOnlyAsTabled : Instr.writesV 0xF (.ldRegs 0xE) = false ∧
    Instr.readsV 0xF (.ldRegs 0xE) = false ∧ Instr.writesV 0xE (.ldRegs 0xE) = true ∧
    (after 0xFE65 s0).isSome = true := by decide

/-- Not 00E0 and not DXYN, not FX15, not FX18: 6XNN. -/
theorem test_meets_DevicesChangeOnlyByTheirInstructions : Instr.writesFrame (.ldImm 0 0) = false ∧
    (∀ x, Instr.ldImm 0 0 ≠ .ldDtVx x) ∧ (∀ x, Instr.ldImm 0 0 ≠ .ldStVx x) ∧
    exec (.ldImm 0 0) s0 = .next s0 := ⟨rfl, by simp, by simp, rfl⟩

/-- A state to jump from, and T-F4's self-jump, 1200 at 0200. -/
theorem test_meets_JumpSetsPc : (s0.fault = none ∧ CpuTurn s0 []) ∧
    (let s := s0.withFetchWord 16 0x1200
     Fetches s (encode (.jp 0x200#12)) ∧ CpuTurn s [] ∧ s.pc.toNat = (0x200#12).toNat) := by
  refine ⟨⟨rfl, .inr ⟨rfl, rfl⟩⟩, ⟨?_, ?_, ?_, ?_⟩, .inr ⟨rfl, rfl⟩, ?_⟩ <;> decide

/-- One active call, sixteen, and none. -/
theorem test_meets_ReturnPopsTheReturnAddress :
    ({ s0 with sp := 1 }.sp = (0 : Fin 16).succ) ∧ ({ s0 with sp := 16 }.sp = (15 : Fin 16).succ) ∧
    s0.sp = 0 ∧ s0.fault = none := by decide

/-- No active call, fifteen, and sixteen. -/
theorem test_meets_CallPushesTheReturnAddress :
    (s0.sp = (0 : Fin 16).castSucc) ∧ ({ s0 with sp := 15 }.sp = (15 : Fin 16).castSucc) ∧
    { s0 with sp := 16 }.sp.val = 16 ∧ { s0 with sp := 16 }.fault = none := by decide

/-- The sixteenth call, and a state between it and its return: a deeper slot has changed. -/
theorem test_meets_CallThenReturnRestoresPcAndSp :
    ({ s0 with sp := 15 }.sp = (15 : Fin 16).castSucc) ∧ s0.sp = (0 : Fin 16).castSucc ∧
    (∃ t, exec (.call 0x300) s0 = .next t ∧
      { t with stack := t.stack.set 1 0x304 }.sp = t.sp ∧
      { t with stack := t.stack.set 1 0x304 }.stack[(0 : Fin 16)] = t.stack[(0 : Fin 16)]) ∧
    ({ s0 with sp := 16 }.sp.val > (0 : Fin 16).val ∧ (after 0x2300 { s0 with sp := 16 }).isSome = true) :=
  ⟨by decide, by decide, ⟨_, rfl, rfl, rfl⟩, by decide⟩

theorem test_meets_FlagRegisterAsOperand : (0 : Reg) ≠ 15 ∧ (14 : Reg) ≠ 15 := by decide

/-- I = 4093, where all three digits fit, and 4094, where the last does not. -/
theorem test_meets_DecimalStoreWritesThreeDigits :
    ({ s0 with i := 0xFFD }.i.toNat + 2 ≤ 4095) ∧
    ({ s0 with i := 0xFFE }.i.toNat + 2 > 4095 ∧ { s0 with i := 0xFFE }.fault = none ∧
      1 < 3 ∧ { s0 with i := 0xFFE }.i.toNat + 1 ≤ 4095) := by decide

/-- X = 15 at I = 4080 and at 4081, and X = 0 at 65535. -/
theorem test_meets_RegisterStoreWritesV0ToVx :
    ({ s0 with i := 0xFF0 }.i.toNat + (15 : Reg).val ≤ 4095) ∧
    ({ s0 with i := 0xFF1 }.i.toNat + (15 : Reg).val > 4095 ∧ { s0 with i := 0xFF1 }.fault = none ∧
      (14 : Reg) ≤ 15 ∧ { s0 with i := 0xFF1 }.i.toNat + (14 : Reg).val ≤ 4095) ∧
    ({ s0 with i := 0xFFFF }.i.toNat + (0 : Reg).val > 4095) := by decide

/-- The same boundaries for the loads. -/
theorem test_meets_RegisterLoadReadsV0ToVx :
    ({ s0 with i := 0xFF0 }.i.toNat + (15 : Reg).val ≤ 4095) ∧
    ({ s0 with i := 0xFF1 }.i.toNat + (15 : Reg).val > 4095 ∧ { s0 with i := 0xFF1 }.fault = none) := by
  decide

/-- N = 0 with I outside memory, and fifteen rows that end at the last cell. -/
theorem test_meets_DrawXorsTheSpriteOntoTheScreen :
    ((0 : Fin 16).val = 0 ∨ { s0 with i := 0x2000 }.i.toNat + (0 : Fin 16).val ≤ 4096) ∧
    ((15 : Fin 16).val = 0 ∨ { s0 with i := 0xFF1 }.i.toNat + (15 : Fin 16).val ≤ 4096) := by decide

/-- One row too many, and the highest I. -/
theorem test_meets_DrawPastMemoryStopsAtTheBadRow :
    ((2 : Fin 16).val ≥ 1 ∧ { s0 with i := 0xFFF }.i.toNat + (2 : Fin 16).val > 4096 ∧
      { s0 with i := 0xFFF }.fault = none) ∧
    ((1 : Fin 16).val ≥ 1 ∧ { s0 with i := 0xFFFF }.i.toNat + (1 : Fin 16).val > 4096) := by decide

/-- Glyph 0 drawn on the blank screen, and the state after it as the second state. -/
theorem test_meets_DrawingTwiceRestoresTheScreen :
    ((5 : Fin 16).val = 0 ∨ s0.i.toNat + (5 : Fin 16).val ≤ 4096) ∧
    ∃ t, exec (.drw 0 1 5) s0 = .next t ∧ { s0 with fb := t.fb }.fb = t.fb ∧
      { s0 with fb := t.fb }.mem = s0.mem ∧ { s0 with fb := t.fb }.i = s0.i ∧
      { s0 with fb := t.fb }.v[(0 : Reg)] = s0.v[(0 : Reg)] ∧
      { s0 with fb := t.fb }.v[(1 : Reg)] = s0.v[(1 : Reg)] :=
  ⟨by decide, _, rfl, rfl, rfl, rfl, rfl, rfl⟩

/-- The last key that exists and the first number that is no key. -/
theorem test_meets_KeySkips : (s0.v.set 0 0x0F#8)[(0 : Reg)].toNat = (15 : Fin 16).val ∧
    (s0.v.set 0 0x10#8)[(0 : Reg)].toNat ≥ 16 := by decide

/-- A key is down; none is; and a waiting cycle repeated. -/
theorem test_meets_KeyWaitSpinsUntilAnyKey :
    { s0 with anyKey := true }.anyKey = true ∧ s0.anyKey = false ∧
    (let s := s0.withFetchWord 16 0xF10A
     Fetches s (encode (.ldVxK 1)) ∧ CpuTurn s [] ∧ s.anyKey = false ∧ s.drawFlag = false) ∧
    { s0 with opcode := 0xF10A }.opcode = encode (.ldVxK 1) := by
  refine ⟨?_, ?_, ⟨⟨?_, ?_, ?_, ?_⟩, .inr ⟨rfl, rfl⟩, ?_, ?_⟩, ?_⟩ <;> decide

theorem test_meets_TickCountsItsTimerDown :
    { s0 with agenda := [.event (.tick .delay)] }.agenda = .event (.tick .delay) :: [] ∧
    { s0 with agenda := [.event (.tick .sound), .cycle] }.agenda = .event (.tick .sound) :: [.cycle] := by
  decide

theorem test_meets_KeypadOperations : 15 < 16 ∧ keyIsPressed 15 s0 = .ok false ∧
    16 ≥ 16 ∧ keyIsPressed 16 s0 = .error (.invalidKey 16) := ⟨by decide, rfl, by decide, rfl⟩

/-- Key 15 pressed, key 15 released, and the number 16 sent. -/
theorem test_meets_KeyEventsAreStepsOfTheirOwn :
    (15 < 16 ∧ { s0 with agenda := [.event (.keyPress 15)] }.agenda = .event (.keyPress 15) :: []) ∧
    { s0 with agenda := [.event (.keyRelease 15)] }.agenda = .event (.keyRelease 15) :: [] ∧
    (16 ≥ 16 ∧ s0.fault = none ∧
      { s0 with agenda := [.event (.keyRelease 16)] }.agenda = .event (.keyRelease 16) :: []) := by decide

/-- The last pixel, and the first coordinate off the grid on either side. -/
theorem test_meets_FramebufferOperations : gfxGet 63 31 s0 = .ok false ∧
    (64 ≥ 64 ∨ 0 ≥ 32) ∧ gfxGet 64 0 s0 = .error (.coordinateOutOfRange 64 0) ∧
    (0 ≥ 64 ∨ 32 ≥ 32) := ⟨rfl, by decide, rfl, by decide⟩

theorem test_meets_RegisterAccessors : 15 < 16 ∧ regGet 15 s0 = .ok 0x00 ∧ 16 ≥ 16 ∧
    regGet 16 s0 = .error (.registerIndexInvalid 16) := ⟨by decide, rfl, by decide, rfl⟩

/-- T-F4: 1200 at 0200; a press of key 3 and a query in range are possible there. -/
theorem test_meets_SelfJumpIsQuiescent : Quiescent (s0.withFetchWord 16 0x1200) ∧
    CpuTurn (s0.withFetchWord 16 0x1200) [] ∧ hostFault (Event.keyPress 3).call = none ∧
    hostFault (Event.query (.pixel 63 31)).call = none :=
  ⟨⟨0x200, ⟨by decide, by decide, by decide, by decide⟩, by decide⟩, .inr ⟨rfl, rfl⟩, by decide, by decide⟩

/-- For each kind a call can raise, the last argument in range and the first outside (T-X1 to T-X6); a query
in range and one outside on the agenda. -/
theorem test_meets_HostCallsRecordTheirFaults : s0.fault = none ∧ CpuTurn s0 [] ∧
    (hostFault (.memGet 4095) = none ∧ hostFault (.memSet 4096 0) = some (.addressOutOfRange 4096)) ∧
    (hostFault (.regSet 15 0) = none ∧ hostFault (.regGet 16) = some (.registerIndexInvalid 16)) ∧
    (hostFault (.gfxGet 63 31) = none ∧ hostFault (.gfxGet 0 32) = some (.coordinateOutOfRange 0 32) ∧
      hostFault (.gfxDraw 64 0 true) = some (.coordinateOutOfRange 64 0)) ∧
    (hostFault (.keyIsPressed 15) = none ∧ hostFault (.keyIsPressed 16) = some (.invalidKey 16)) ∧
    { s0 with agenda := [.event (.query (.reg 15))] }.agenda = .event (.query (.reg 15)) :: [] ∧
    { s0 with agenda := [.event (.query (.reg 16))] }.agenda = .event (.query (.reg 16)) :: [] :=
  ⟨rfl, .inr ⟨rfl, rfl⟩, by decide, by decide, by decide, by decide, rfl, rfl⟩

/-- The default font is a font; the longest image and one a byte longer. -/
theorem test_meets_BootLeavesTheResetState : fontOk font = true ∧
    (List.replicate 3584 0x00#8).length ≤ 3584 ∧ (List.replicate 3585 0x00#8).length > 3584 :=
  ⟨by decide, by rw [List.length_replicate], by rw [List.length_replicate]; decide⟩

end Sys2Proof.Tests
end

section
/-!
PROOFS. Byte and two-byte memory access (20_memory.md R51 to R53).
-/

namespace Sys2Proof.Proofs

open Sys2Proof.Machine

/-! ### Byte access: what a read answers after a write -/

theorem memRead_after_write_same {a : Nat} (ha : a < Config.memSize) (w : Byte) (s : State) :
    memRead a { s with mem := s.mem.write a w } = .ok w := by
  rw [memRead_of_lt ha, Memory.read_write_self]

theorem memRead_after_write_of_ne {a b : Nat} (hab : a ≠ b) (w : Byte) (s : State) :
    memRead b { s with mem := s.mem.write a w } = memRead b s := by
  by_cases hb : b < Config.memSize
  · rw [memRead_of_lt hb, memRead_of_lt hb, Memory.read_write_of_ne _ hab]
  · have hb' : Config.memSize ≤ b := by omega
    rw [memRead_of_ge hb', memRead_of_ge hb']

/-- Settles O16: a byte access succeeds exactly inside the space, and there the write is one cell's. -/
theorem memoryReadsBackWhatWasWritten : Obligations.MemoryReadsBackWhatWasWritten := by
  intro a w s
  constructor
  · intro h
    have ha : a < Config.memSize := Nat.lt_succ_of_le h
    exact ⟨_, memWrite_of_lt ha w s, memRead_after_write_same ha w s,
      fun b hb => memRead_after_write_of_ne hb.symm w s, rfl, memRead_of_lt ha s⟩
  · intro h
    have ha : Config.memSize ≤ a := h
    exact ⟨memRead_of_ge ha s, memWrite_of_ge ha w s⟩

/-! ### The two-byte read -/

theorem memReadWord_of_le {a : Nat} (h : a ≤ 4094) (s : State) :
    memReadWord a s = .ok (beWord (s.mem.read a) (s.mem.read (a + 1))) := by
  rw [memReadWord_eq, if_pos h]

/-- The first bad address is the one recorded: 4096 from 4095, where the first byte is still read. -/
theorem memReadWord_of_gt {a : Nat} (h : 4094 < a) (s : State) :
    memReadWord a s = .error (.addressOutOfRange (max a 4096)) := by
  rw [memReadWord_eq, if_neg (Nat.not_le_of_gt h)]

/-- Settles O7: the word read is the big-endian one, and the fault names the first bad address. -/
theorem twoByteReadIsBigEndian : Obligations.TwoByteReadIsBigEndian := by
  intro a s
  refine ⟨fun h => ?_, fun h => ?_, fun h => ?_⟩
  · exact ⟨_, memReadWord_of_le h s, beWord_toNat _ _⟩
  · rw [memReadWord_of_gt (by omega), max_eq_right (by omega)]
  · rw [memReadWord_of_gt (by omega), max_eq_left h]

end Sys2Proof.Proofs
end

section
/-!
PROOFS. The decoder against the opcode table of masks (30_encoding.md R75, R82).
-/

namespace Sys2Proof.Proofs

/-! ### The masks of 30_encoding.md R75 as conditions on the fields the decoder looks at -/

theorem family_toNat (op : Word) : (family op).toNat = op.toNat / 0x1000 :=
  ((family_eq_iff op _).mp rfl).symm

theorem lowNibble_toNat (op : Word) : (lowNibble op).toNat = op.toNat % 0x10 :=
  ((lowNibble_eq_iff op _).mp rfl).symm

theorem lowByte_toNat (op : Word) : (lowByte op).toNat = op.toNat % 0x100 :=
  ((lowByte_eq_iff op _).mp rfl).symm

@[simp] theorem family_ofNat (n : Nat) :
    family (BitVec.ofNat 16 n) = BitVec.ofNat 4 (n / 0x1000) := by
  rw [family_eq_iff, BitVec.toNat_ofNat, BitVec.toNat_ofNat]
  omega

@[simp] theorem lowNibble_ofNat (n : Nat) : lowNibble (BitVec.ofNat 16 n) = BitVec.ofNat 4 n := by
  rw [lowNibble_eq_iff, BitVec.toNat_ofNat, BitVec.toNat_ofNat]
  omega

@[simp] theorem lowByte_ofNat (n : Nat) : lowByte (BitVec.ofNat 16 n) = BitVec.ofNat 8 n := by
  rw [lowByte_eq_iff, BitVec.toNat_ofNat, BitVec.toNat_ofNat]
  omega

theorem and_F000_eq_iff {op v : Word} (hv : v &&& 0xF000#16 = v) :
    op &&& 0xF000#16 = v ↔ family op = family v := by
  rw [← BitVec.toNat_inj, and_top_toNat] at hv
  rw [← BitVec.toNat_inj, and_top_toNat, family_eq_iff, family_toNat]
  omega

theorem and_F00F_eq_iff {op v : Word} (hv : v &&& 0xF00F#16 = v) :
    op &&& 0xF00F#16 = v ↔ family op = family v ∧ lowNibble op = lowNibble v := by
  rw [← BitVec.toNat_inj, and_F00F_toNat] at hv
  rw [← BitVec.toNat_inj, and_F00F_toNat, family_eq_iff, family_toNat, lowNibble_eq_iff,
    lowNibble_toNat]
  omega

theorem and_F0FF_eq_iff {op v : Word} (hv : v &&& 0xF0FF#16 = v) :
    op &&& 0xF0FF#16 = v ↔ family op = family v ∧ lowByte op = lowByte v := by
  rw [← BitVec.toNat_inj, and_F0FF_toNat] at hv
  rw [← BitVec.toNat_inj, and_F0FF_toNat, family_eq_iff, family_toNat, lowByte_eq_iff,
    lowByte_toNat]
  omega

theorem and_FFFF_eq_iff {op v : Word} :
    op &&& 0xFFFF#16 = v ↔ family op = family v ∧ op = v := by
  rw [show 0xFFFF#16 = BitVec.allOnes 16 from rfl, BitVec.and_allOnes]
  exact ⟨fun h => ⟨congrArg family h, h⟩, And.right⟩

theorem matches_iff (r : OpcodeRow) (op : Word) :
    r.matches op = true ↔ op &&& r.mask = r.value := beq_iff_eq

/-! ### At most one row matches -/

/-- On the bits that both masks keep, the two rows ask for different values (30_encoding.md R82). -/
def RowsClash (r r' : OpcodeRow) : Prop := r.value &&& r'.mask ≠ r'.value &&& r.mask

theorem RowsClash.not_matches_of_matches {r r' : OpcodeRow} (h : RowsClash r r') {op : Word}
    (hr : r.matches op = true) : r'.matches op ≠ true := by
  intro hr'
  rw [matches_iff] at hr hr'
  apply h
  calc r.value &&& r'.mask = op &&& r.mask &&& r'.mask := by rw [hr]
    _ = op &&& r'.mask &&& r.mask := by ac_rfl
    _ = r'.value &&& r.mask := by rw [hr']

theorem opcodeTable_pairwise_clash : opcodeTable.Pairwise RowsClash := by
  unfold RowsClash
  decide

/-- Two rows left by the filter would clash and both match. -/
theorem length_filter_matches_le_one {rows : List OpcodeRow} (h : rows.Pairwise RowsClash)
    (op : Word) : (rows.filter fun r => r.matches op).length ≤ 1 := by
  have hp := h.filter fun r => r.matches op
  have hm : ∀ r ∈ rows.filter fun r => r.matches op, r.matches op = true :=
    fun r hr => (List.mem_filter.mp hr).2
  generalize rows.filter (fun r => r.matches op) = kept at hp hm
  match kept with
  | [] | [_] => simp
  | r :: r' :: _ =>
    have hclash : RowsClash r r' := List.rel_of_pairwise_cons hp (by simp)
    exact absurd (hm r' (by simp)) (hclash.not_matches_of_matches (hm r (by simp)))

/-! ### The decoder gives the matching row's instruction -/

/-- What 30_encoding.md R82 says of a word by a list of rows: the matching row's instruction, or
*invalid*. -/
def decodeByRows (rows : List OpcodeRow) (op : Word) : Except DecodeError Instr :=
  match rows.find? fun r => r.matches op with
  | some r => .ok (r.make op)
  | none => .error (.invalidInstruction op)

theorem decodeByRows_nil (op : Word) :
    decodeByRows [] op = .error (.invalidInstruction op) := rfl

theorem decodeByRows_cons (r : OpcodeRow) (rows : List OpcodeRow) (op : Word) :
    decodeByRows (r :: rows) op =
      if op &&& r.mask = r.value then .ok (r.make op) else decodeByRows rows op := by
  by_cases h : op &&& r.mask = r.value <;> simp [decodeByRows, OpcodeRow.matches, h]

theorem family_cases (t : BitVec 4) :
    t = 0x0#4 ∨ t = 0x1#4 ∨ t = 0x2#4 ∨ t = 0x3#4 ∨ t = 0x4#4 ∨ t = 0x5#4 ∨ t = 0x6#4 ∨ t = 0x7#4 ∨
    t = 0x8#4 ∨ t = 0x9#4 ∨ t = 0xA#4 ∨ t = 0xB#4 ∨ t = 0xC#4 ∨ t = 0xD#4 ∨ t = 0xE#4 ∨ t = 0xF#4 := by
  decide +revert

/-- With the masks read as conditions on the fields, the table is one chain of tests; in a given family
only that family's tests are left of it, and they are the decoder's. -/
theorem decode_eq_decodeByRows (op : Word) : decode op = decodeByRows opcodeTable op := by
  simp only [opcodeTable, List.cons_append, List.nil_append, decodeByRows_cons, decodeByRows_nil,
    and_F000_eq_iff, and_F00F_eq_iff, and_F0FF_eq_iff, and_FFFF_eq_iff, family_ofNat,
    lowNibble_ofNat, lowByte_ofNat, Nat.reduceDiv, BitVec.reduceAnd, BitVec.reduceOfNat]
  rcases family_cases (family op) with
    h | h | h | h | h | h | h | h | h | h | h | h | h | h | h | h <;>
  simp [decode, decode0, decode5, decode8, decode9, decodeE, decodeF, h]

/-- Settles O3: the masks of the table clash pairwise, and the decoder tests what they test. -/
theorem decoderFollowsOpcodeTable : Obligations.DecoderFollowsOpcodeTable :=
  ⟨rfl, fun op => ⟨length_filter_matches_le_one opcodeTable_pairwise_clash op,
    decode_eq_decodeByRows op⟩⟩

end Sys2Proof.Proofs
end

section
/-!
PROOFS. From the rows of the opcode table to the words of one instruction (30_encoding.md R75, R76).
-/

namespace Sys2Proof.Proofs

/-- The rows stand in the order of `Instr`'s constructors, so no two of them make one instruction. -/
theorem opcodeTable_ctorIdx (op : Word) :
    opcodeTable.map (fun r => (r.make op).ctorIdx) = List.range 34 := rfl

theorem opcodeTable_make_injective {r r' : OpcodeRow} (hr : r ∈ opcodeTable) (hr' : r' ∈ opcodeTable)
    {op : Word} (h : r.make op = r'.make op) : r = r' := by
  have hnodup : (opcodeTable.map fun r => (r.make op).ctorIdx).Nodup := by
    rw [opcodeTable_ctorIdx]
    exact List.nodup_range
  exact List.inj_on_of_nodup_map hnodup hr hr' (by rw [h])

theorem decodeByRows_eq_of_matches {rows : List OpcodeRow} (hclash : rows.Pairwise RowsClash)
    {r : OpcodeRow} (hr : r ∈ rows) {op : Word} (hm : r.matches op = true) :
    decodeByRows rows op = .ok (r.make op) := by
  induction hclash with
  | nil => cases hr
  | @cons r₀ rows h₀ _ ih =>
    rw [decodeByRows_cons]
    rcases List.mem_cons.mp hr with rfl | hr
    · rw [if_pos ((matches_iff _ _).mp hm)]
    · rw [if_neg fun hm₀ => (h₀ r hr).not_matches_of_matches ((matches_iff _ _).mpr hm₀) hm, ih hr]

theorem exists_matching_row_of_decodeByRows {rows : List OpcodeRow} {op : Word} {i : Instr}
    (h : decodeByRows rows op = .ok i) : ∃ r ∈ rows, r.matches op = true ∧ r.make op = i := by
  unfold decodeByRows at h
  split at h
  next r hfind =>
    have hm : r.matches op = true := by simpa using List.find?_some hfind
    exact ⟨r, List.mem_of_find?_eq_some hfind, hm, Except.ok.inj h⟩
  next => cases h

/-- A row's pattern is met by exactly the words that decode to the row's instruction. -/
theorem encodes_of_mem {mnemonic : String} {mask value : Word} {make : Word → Instr}
    (hr : ⟨mnemonic, mask, value, make⟩ ∈ opcodeTable) : Encodes mask value make := by
  intro op
  rw [decode_eq_decodeByRows]
  constructor
  · intro h
    exact decodeByRows_eq_of_matches opcodeTable_pairwise_clash hr ((matches_iff _ _).mpr h)
  · intro h
    obtain ⟨r', hr', hm, hmake⟩ := exists_matching_row_of_decodeByRows h
    obtain rfl := opcodeTable_make_injective hr' hr hmake
    exact (matches_iff _ _).mp hm

theorem and_000F_eq_zero_iff (op : Word) : op &&& 0x000F#16 = 0#16 ↔ lowNibble op = 0x0#4 := by
  rw [← BitVec.toNat_inj, and_low4_toNat, lowNibble_eq_iff]
  rfl

/-- The masks of `NeedsLowNibbleZero` read as conditions on the fields. -/
theorem needsLowNibbleZero_of_fields {value : Word} (hv : value &&& 0xF000#16 = value)
    (hinvalid : ∀ op, family op = family value → lowNibble op ≠ 0x0#4 →
      decode op = .error (.invalidInstruction op)) :
    NeedsLowNibbleZero value := by
  intro op hfam hlow
  rw [and_F000_eq_iff hv] at hfam
  rw [Ne, and_000F_eq_zero_iff] at hlow
  exact hinvalid op hfam hlow

theorem decode_of_family_5 {op : Word} (h : family op = 0x5#4) : decode op = decode5 op := by
  simp [decode, h]

theorem decode_of_family_9 {op : Word} (h : family op = 0x9#4) : decode op = decode9 op := by
  simp [decode, h]

theorem needsLowNibbleZero_5 : NeedsLowNibbleZero 0x5000#16 :=
  needsLowNibbleZero_of_fields rfl fun op hfam hlow => by
    rw [decode_of_family_5 hfam, decode5, if_neg hlow]

theorem needsLowNibbleZero_9 : NeedsLowNibbleZero 0x9000#16 :=
  needsLowNibbleZero_of_fields rfl fun op hfam hlow => by
    rw [decode_of_family_9 hfam, decode9, if_neg hlow]

end Sys2Proof.Proofs
end

section
/-!
PROOFS. The conditional skips (41_flow.md R104 to R108).
-/

namespace Sys2Proof.Proofs

open Sys2Proof.Machine

/-- A skip under a test writes PC alone, whatever proposition the test decides. -/
theorem skipIf_eq_of_iff {c : Bool} {p : Prop} [Decidable p] (h : c = true ↔ p) (s : State) :
    skipIf c s = { s with pc := if p then s.pc + 2#16 else s.pc } := by
  by_cases hp : p
  · rw [if_pos hp, h.mpr hp]
    rfl
  · rw [if_neg hp, Bool.eq_false_iff.mpr (mt h.mp hp)]
    rfl

theorem exec_seImm (x : Reg) (nn : Byte) (s : State) :
    exec (.seImm x nn) s = .next { s with pc := if s.v[x] = nn then s.pc + 2#16 else s.pc } :=
  congrArg _ (skipIf_eq_of_iff beq_iff_eq s)

theorem exec_sneImm (x : Reg) (nn : Byte) (s : State) :
    exec (.sneImm x nn) s = .next { s with pc := if s.v[x] ≠ nn then s.pc + 2#16 else s.pc } :=
  congrArg _ (skipIf_eq_of_iff bne_iff_ne s)

theorem exec_seReg (x y : Reg) (s : State) :
    exec (.seReg x y) s = .next { s with pc := if s.v[x] = s.v[y] then s.pc + 2#16 else s.pc } :=
  congrArg _ (skipIf_eq_of_iff beq_iff_eq s)

theorem exec_sneReg (x y : Reg) (s : State) :
    exec (.sneReg x y) s = .next { s with pc := if s.v[x] ≠ s.v[y] then s.pc + 2#16 else s.pc } :=
  congrArg _ (skipIf_eq_of_iff bne_iff_ne s)

theorem exec_seReg_self (x : Reg) (s : State) :
    exec (.seReg x x) s = .next { s with pc := s.pc + 2#16 } := by
  rw [exec_seReg, if_pos rfl]

theorem exec_sneReg_self (x : Reg) (s : State) : exec (.sneReg x x) s = .next s := by
  rw [exec_sneReg, if_neg (not_not_intro rfl)]

/-- Settles O32: the words are the two rows of the table, and each instruction is a skip under its test. -/
theorem immediateSkips : Obligations.ImmediateSkips :=
  ⟨encodes_of_mem (mnemonic := "SE.imm") (by simp [opcodeTable]),
    encodes_of_mem (mnemonic := "SNE.imm") (by simp [opcodeTable]),
    fun x nn s => ⟨exec_seImm x nn s, exec_sneImm x nn s⟩⟩

/-- Settles O33: the words are the two rows of the table, their families have no other, and each
instruction is a skip under its test, which X = Y decides. -/
theorem registerSkips : Obligations.RegisterSkips :=
  ⟨encodes_of_mem (mnemonic := "SE.reg") (by simp [opcodeTable]),
    encodes_of_mem (mnemonic := "SNE.reg") (by simp [opcodeTable]),
    needsLowNibbleZero_5, needsLowNibbleZero_9,
    fun x y s => ⟨exec_seReg x y s, exec_sneReg x y s, exec_seReg_self x s, exec_sneReg_self x s⟩⟩

end Sys2Proof.Proofs
end

section
/-!
PROOFS. Loads, logic and additions of registers (42_alu.md R110 to R116).
-/

namespace Sys2Proof.Proofs

open Sys2Proof.Machine

/-- A byte sum is the true sum of the operands modulo 256. -/
theorem byte_add_eq_ofNat (a b : Byte) : a + b = BitVec.ofNat 8 ((a.toNat + b.toNat) % 256) := by
  apply BitVec.eq_of_toNat_eq
  rw [BitVec.toNat_add, BitVec.toNat_ofNat, Nat.mod_mod]

/-- A flag write stores the test's truth value in all of VF and leaves every other field. -/
theorem setFlag_decide (p : Prop) [Decidable p] (s : State) :
    setFlag (decide p) s = { s with v := s.v.set 15 (if p then 1#8 else 0#8) } := by
  by_cases hp : p
  · rw [if_pos hp, decide_eq_true hp]
    rfl
  · rw [if_neg hp, decide_eq_false hp]
    rfl

/-! ### One equation per instruction, its whole next state -/

theorem exec_ldImm (x : Reg) (nn : Byte) (s : State) :
    exec (.ldImm x nn) s = .next { s with v := s.v.set x nn } := rfl

theorem exec_addImm (x : Reg) (nn : Byte) (s : State) :
    exec (.addImm x nn) s =
      .next { s with v := s.v.set x (BitVec.ofNat 8 (((s.v[x]).toNat + nn.toNat) % 256)) } := by
  rw [← byte_add_eq_ofNat]
  rfl

theorem exec_ldReg (x y : Reg) (s : State) :
    exec (.ldReg x y) s = .next { s with v := s.v.set x s.v[y] } := rfl

theorem exec_orReg (x y : Reg) (s : State) :
    exec (.orReg x y) s = .next { s with v := s.v.set x (s.v[x] ||| s.v[y]) } := rfl

theorem exec_andReg (x y : Reg) (s : State) :
    exec (.andReg x y) s = .next { s with v := s.v.set x (s.v[x] &&& s.v[y]) } := rfl

theorem exec_xorReg (x y : Reg) (s : State) :
    exec (.xorReg x y) s = .next { s with v := s.v.set x (s.v[x] ^^^ s.v[y]) } := rfl

/-- Both operands are those of `s`, so neither the carry nor the sum sees the flag write. -/
theorem exec_addReg (x y : Reg) (s : State) :
    exec (.addReg x y) s = .next { s with
      v := (s.v.set 15 (if (s.v[x]).toNat + (s.v[y]).toNat > 255 then 1#8 else 0#8)).set x
        (BitVec.ofNat 8 (((s.v[x]).toNat + (s.v[y]).toNat) % 256)) } := by
  have hwrites : exec (.addReg x y) s = .next (setV x (s.v[x] + s.v[y])
      (setFlag (decide ((s.v[x]).toNat + (s.v[y]).toNat > 255)) s)) := rfl
  rw [hwrites, setFlag_decide, byte_add_eq_ofNat]
  rfl

/-- Settles O34: the words are the two rows of the table, and the byte sum is the sum modulo 256. -/
theorem immediateLoadAndAdd : Obligations.ImmediateLoadAndAdd :=
  ⟨encodes_of_mem (mnemonic := "LD.imm") (by simp [opcodeTable]),
    encodes_of_mem (mnemonic := "ADD.imm") (by simp [opcodeTable]),
    fun x nn s => ⟨exec_ldImm x nn s, exec_addImm x nn s⟩⟩

/-- Settles O35: the words are the four rows of the table, and the byte written is the bitwise
operation's, known bit by bit. -/
theorem copyAndLogic : Obligations.CopyAndLogic :=
  ⟨encodes_of_mem (mnemonic := "LD.reg") (by simp [opcodeTable]),
    encodes_of_mem (mnemonic := "OR") (by simp [opcodeTable]),
    encodes_of_mem (mnemonic := "AND") (by simp [opcodeTable]),
    encodes_of_mem (mnemonic := "XOR") (by simp [opcodeTable]),
    fun x y s => ⟨exec_ldReg x y s,
      ⟨_, exec_orReg x y s, fun _ => BitVec.getLsbD_or⟩,
      ⟨_, exec_andReg x y s, fun _ => BitVec.getLsbD_and⟩,
      ⟨_, exec_xorReg x y s, fun _ => BitVec.getLsbD_xor⟩⟩⟩

/-- Settles O36: the words are one row of the table, and the carry and the sum are both taken before the
flag write. -/
theorem addReportsTheCarry : Obligations.AddReportsTheCarry :=
  ⟨encodes_of_mem (mnemonic := "ADD.reg") (by simp [opcodeTable]), exec_addReg⟩

end Sys2Proof.Proofs
end

section
/-!
PROOFS. The loads of the index register (43_index_memory.md R130 to R132).
-/

namespace Sys2Proof.Proofs

open Sys2Proof.Machine

/-- Widening a register's byte keeps its number. -/
theorem wordOf_toNat (b : Byte) : (wordOf b).toNat = b.toNat :=
  BitVec.toNat_setWidth_of_le (by decide)

/-- A word plus a widened byte is the true sum modulo 65536. -/
theorem add_wordOf_eq_ofNat (i : Word) (b : Byte) :
    i + wordOf b = BitVec.ofNat 16 ((i.toNat + b.toNat) % 65536) := by
  apply BitVec.eq_of_toNat_eq
  rw [BitVec.toNat_add, wordOf_toNat, BitVec.toNat_ofNat, Nat.mod_mod]

theorem exec_ldI (nnn : Addr12) (s : State) :
    exec (.ldI nnn) s = .next { s with i := nnn.setWidth 16 } := rfl

theorem exec_addI (x : Reg) (s : State) :
    exec (.addI x) s =
      .next { s with i := BitVec.ofNat 16 ((s.i.toNat + (s.v[x]).toNat) % 65536) } := by
  rw [← add_wordOf_eq_ofNat]
  rfl

/-- The glyph's address is computed from V[X] alone; no byte of memory is looked at. -/
theorem exec_ldF (x : Reg) (s : State) :
    exec (.ldF x) s = .next { s with i := BitVec.ofNat 16 (((s.v[x]).toNat % 16) * 5) } := rfl

/-- Settles O41: the words are the three rows of the table, and the sum with the widened byte is the sum
modulo 65536. -/
theorem indexRegisterLoads : Obligations.IndexRegisterLoads :=
  ⟨encodes_of_mem (mnemonic := "LD.I") (by simp [opcodeTable]),
    encodes_of_mem (mnemonic := "ADD.I") (by simp [opcodeTable]),
    encodes_of_mem (mnemonic := "LD.F") (by simp [opcodeTable]),
    exec_ldI, fun x s => ⟨exec_addI x s, exec_ldF x s⟩⟩

end Sys2Proof.Proofs
end

section
/-!
PROOFS. An instruction that does not access a timer is indifferent to it (10_state.md R26): it does the same
to everything else whatever the timer holds, and leaves the timer as it was.
-/

namespace Sys2Proof.Proofs

open Sys2Proof.Machine

/-- Change the state a part of a cycle leaves, whether or not it raised. -/
def mapFlow {α : Type} (f : State → State) : Flow α → Flow α
  | .go a s => .go a (f s)
  | .stop e s => .stop e (f s)

/-- Ending a cycle commutes with `f` when its last statements and the record of a fault do. -/
theorem finish_mapFlow {α : Type} {f : State → State} (k : α → State → State)
    (hk : ∀ a s, k a (f s) = f (k a s)) (he : ∀ e s, recordFault e (f s) = f (recordFault e s))
    (r : Flow α) : (mapFlow f r).finish k = mapNext f (r.finish k) := by
  cases r with
  | go a s => exact congrArg _ (hk a s)
  | stop e s => exact congrArg _ (he e s)

section
variable (T : Timer) (b : Byte)

/-! ### The shared operations do not look at the timers -/

@[simp] theorem getV_timerSet (x : Reg) (s : State) : getV x (timerSet T b s) = getV x s := by
  cases T <;> rfl

@[simp] theorem baseAddr_timerSet (s : State) : baseAddr (timerSet T b s) = baseAddr s := by
  cases T <;> rfl

@[simp] theorem memRead_timerSet (a : Nat) (s : State) :
    memRead a (timerSet T b s) = memRead a s := by
  cases T <;> rfl

@[simp] theorem timerSet_fb (s : State) : (timerSet T b s).fb = s.fb := by
  cases T <;> rfl

theorem withFb_timerSet (fb : FrameBuffer) (s : State) :
    { timerSet T b s with fb := fb } = timerSet T b { s with fb := fb } := by
  cases T <;> rfl

theorem recordFault_timerSet (e : Fault) (s : State) :
    recordFault e (timerSet T b s) = timerSet T b (recordFault e s) := by
  cases T <;> rfl

theorem skipIf_timerSet (c : Bool) (s : State) :
    skipIf c (timerSet T b s) = timerSet T b (skipIf c s) := by
  cases c <;> cases T <;> rfl

theorem advanceI_timerSet (x : Reg) (s : State) :
    advanceI x (timerSet T b s) = timerSet T b (advanceI x s) := by
  cases T <;> rfl

theorem markDrawn_setFlag_timerSet (c : Bool) (s : State) :
    markDrawn (setFlag c (timerSet T b s)) = timerSet T b (markDrawn (setFlag c s)) := by
  cases T <;> rfl

theorem storeBytes_timerSet (a : Nat) (ws : List Byte) (s : State) :
    storeBytes a ws (timerSet T b s) = mapFlow (timerSet T b) (storeBytes a ws s) := by
  rw [storeBytes_eq, storeBytes_eq]
  split <;> cases T <;> rfl

theorem loadRegsFrom_timerSet (a : Nat) (xs : List Reg) (s : State) :
    loadRegsFrom a xs (timerSet T b s) = mapFlow (timerSet T b) (loadRegsFrom a xs s) := by
  rw [loadRegsFrom_eq, loadRegsFrom_eq]
  split <;> cases T <;> rfl

theorem drawRows_timerSet (vx vy : Byte) (base rows r : Nat) (coll : Bool) (s : State) :
    drawRows vx vy base rows r coll (timerSet T b s) =
      mapFlow (timerSet T b) (drawRows vx vy base rows r coll s) := by
  induction rows generalizing r coll s with
  | zero => rfl
  | succ rows ih =>
    rw [drawRows, drawRows, memRead_timerSet, timerSet_fb]
    cases memRead (base + r) s with
    | error e => rfl
    | ok w =>
      simp only [withFb_timerSet]
      exact ih _ _ _

/-! ### The instructions that branch or can raise -/

theorem execRet_timerSet (s : State) :
    execRet (timerSet T b s) = mapNext (timerSet T b) (execRet s) := by
  by_cases h : s.sp.val = 0 <;> cases T <;> simp [execRet, popReturn, h] <;> rfl

theorem execCall_timerSet (nnn : Addr12) (s : State) :
    execCall nnn (timerSet T b s) = mapNext (timerSet T b) (execCall nnn s) := by
  by_cases h : s.sp.val < 16 <;> cases T <;> simp [execCall, pushReturn, h] <;> rfl

theorem execLdVxK_timerSet (x : Reg) (s : State) :
    execLdVxK x (timerSet T b s) = mapNext (timerSet T b) (execLdVxK x s) := by
  by_cases h : s.anyKey <;> cases T <;> simp [execLdVxK, h] <;> rfl

theorem execLdB_timerSet (x : Reg) (s : State) :
    execLdB x (timerSet T b s) = mapNext (timerSet T b) (execLdB x s) := by
  simp only [execLdB, getV_timerSet, baseAddr_timerSet, storeBytes_timerSet]
  exact finish_mapFlow (fun _ s' => s') (fun _ _ => rfl) (recordFault_timerSet T b) _

theorem execStRegs_timerSet (x : Reg) (s : State) :
    execStRegs x (timerSet T b s) = mapNext (timerSet T b) (execStRegs x s) := by
  simp only [execStRegs, getV_timerSet, baseAddr_timerSet, storeBytes_timerSet]
  exact finish_mapFlow _ (fun _ => advanceI_timerSet T b x) (recordFault_timerSet T b) _

theorem execLdRegs_timerSet (x : Reg) (s : State) :
    execLdRegs x (timerSet T b s) = mapNext (timerSet T b) (execLdRegs x s) := by
  simp only [execLdRegs, baseAddr_timerSet, loadRegsFrom_timerSet]
  exact finish_mapFlow _ (fun _ => advanceI_timerSet T b x) (recordFault_timerSet T b) _

theorem execDrw_timerSet (x y : Reg) (n : Fin 16) (s : State) :
    execDrw x y n (timerSet T b s) = mapNext (timerSet T b) (execDrw x y n s) := by
  simp only [execDrw, getV_timerSet, baseAddr_timerSet, drawRows_timerSet]
  exact finish_mapFlow _ (markDrawn_setFlag_timerSet T b) (recordFault_timerSet T b) _

end

/-! ### Every instruction -/

/-- What an instruction does is the same whatever a timer holds that it does not access. -/
theorem exec_timerSet {T : Timer} {i : Instr} (h : i.usesTimer T = false) (b : Byte) (s : State) :
    exec i (timerSet T b s) = mapNext (timerSet T b) (exec i s) := by
  cases i with
  | ret => exact execRet_timerSet T b s
  | call nnn => exact execCall_timerSet T b nnn s
  | ldVxK x => exact execLdVxK_timerSet T b x s
  | ldB x => exact execLdB_timerSet T b x s
  | stRegs x => exact execStRegs_timerSet T b x s
  | ldRegs x => exact execLdRegs_timerSet T b x s
  | drw x y n => exact execDrw_timerSet T b x y n s
  | seImm | sneImm | seReg | sneReg | skp | sknp =>
    cases T <;> exact congrArg _ (skipIf_timerSet _ b _ s)
  | ldVxDt | ldDtVx =>
    cases T with
    | delay => cases h
    | sound => rfl
  | ldStVx =>
    cases T with
    | delay => rfl
    | sound => cases h
  | cls | jp | ldImm | addImm | ldReg | orReg | andReg | xorReg | addReg | sub | shr | subn | shl
  | ldI | jpV0 | rnd | addI | ldF => cases T <;> rfl

theorem usesTimer_sound_iff (i : Instr) : i.usesTimer .sound = true ↔ ∃ x, i = .ldStVx x := by
  cases i <;> simp [Instr.usesTimer]

end Sys2Proof.Proofs
end

section
/-!
PROOFS. The timer instructions (45_keypad_timer.md R153 to R155).
-/

namespace Sys2Proof.Proofs

open Sys2Proof.Machine

/-- A tick is the subtraction that stops at zero. -/
theorem countDown_toNat (b : Byte) : (countDown b).toNat = b.toNat - 1 := by
  unfold countDown
  split
  · simp [*]
  · bv_omega

/-- The buzzer sounds exactly when ST is not 0 (60_exceptions.md R187). -/
theorem buzz_eq (s : State) : buzz s = (s.st != 0#8) := by
  rw [Bool.eq_iff_iff, bne_iff_ne, buzz, decide_eq_true_iff]
  bv_omega

theorem exec_ldVxDt (x : Reg) (s : State) :
    exec (.ldVxDt x) s = .next { s with v := s.v.set x s.dt } := rfl

theorem exec_ldDtVx (x : Reg) (s : State) :
    exec (.ldDtVx x) s = .next { s with dt := s.v[x] } := rfl

theorem exec_ldStVx (x : Reg) (s : State) :
    exec (.ldStVx x) s = .next { s with st := s.v[x] } := rfl

/-- No instruction reads ST back: FX18 overwrites it, and the others are indifferent to it. -/
theorem mapNext_exec_withSt (i : Instr) (s : State) (b c : Byte) :
    mapNext (fun t => { t with st := c }) (exec i { s with st := b }) =
      mapNext (fun t => { t with st := c }) (exec i s) := by
  cases h : i.usesTimer .sound with
  | true =>
    obtain ⟨x, rfl⟩ := (usesTimer_sound_iff i).mp h
    rfl
  | false =>
    have hb : exec i { s with st := b } = mapNext (timerSet .sound b) (exec i s) :=
      exec_timerSet h b s
    rw [hb]
    cases exec i s <;> rfl

/-- Settles O51: the words are the two rows of the table, and the first tick after the write counts V[X]
down. -/
theorem delayTimerInstructions : Obligations.DelayTimerInstructions :=
  ⟨encodes_of_mem (mnemonic := "LD.Vx.DT") (by simp [opcodeTable]),
    encodes_of_mem (mnemonic := "LD.DT.Vx") (by simp [opcodeTable]),
    fun x s => ⟨exec_ldVxDt x s, exec_ldDtVx x s, countDown_toNat s.v[x]⟩⟩

/-- Settles O52: the words are one row of the table, the buzzer follows the value written, and no
instruction's effect on the rest of the state depends on ST. -/
theorem soundTimerInstruction : Obligations.SoundTimerInstruction :=
  ⟨encodes_of_mem (mnemonic := "LD.ST.Vx") (by simp [opcodeTable]),
    fun x s => ⟨exec_ldStVx x s, buzz_eq _⟩, mapNext_exec_withSt⟩

end Sys2Proof.Proofs
end

section
/-!
PROOFS. The host's framebuffer operations (60_exceptions.md R173 to R175).
-/

namespace Sys2Proof.Proofs

open Sys2Proof.Machine

/-! ### One pixel and the others -/

theorem pixel_setPixel_of_ne {x x' : Fin 64} {y y' : Fin 32} (h : ¬ (x' = x ∧ y' = y))
    (fb : FrameBuffer) (b : Bool) : pixel (setPixel fb x y b) x' y' = pixel fb x' y' := by
  rw [pixel_setPixel, if_neg h]

theorem pixel_drawPixel_self (fb : FrameBuffer) (x : Fin 64) (y : Fin 32) (bit : Bool) :
    pixel (drawPixel fb x y bit).2 x y = (pixel fb x y ^^ bit) := pixel_setPixel_self _ _ _ _

theorem pixel_drawPixel_of_ne {x x' : Fin 64} {y y' : Fin 32} (h : ¬ (x' = x ∧ y' = y))
    (fb : FrameBuffer) (bit : Bool) : pixel (drawPixel fb x y bit).2 x' y' = pixel fb x' y' :=
  pixel_setPixel_of_ne h _ _

/-! ### The operations on the grid and off it -/

section
variable (x : Fin 64) (y : Fin 32) (b : Bool) (s : State)

theorem gfxGet_on_grid : gfxGet x y s = .ok (pixel s.fb x y) := dif_pos ⟨x.isLt, y.isLt⟩

theorem gfxSet_on_grid : gfxSet x y b s = .ok { s with fb := setPixel s.fb x y b } :=
  dif_pos ⟨x.isLt, y.isLt⟩

theorem gfxDraw_on_grid :
    gfxDraw x y b s = .ok (pixel s.fb x y && b, { s with fb := (drawPixel s.fb x y b).2 }) := by
  rw [← drawPixel_fst]
  exact dif_pos ⟨x.isLt, y.isLt⟩

end

section
variable {x y : Nat} (h : x ≥ 64 ∨ y ≥ 32) (b : Bool) (s : State)
include h

theorem gfxGet_off_grid : gfxGet x y s = .error (.coordinateOutOfRange x y) := dif_neg (by omega)

theorem gfxSet_off_grid : gfxSet x y b s = .error (.coordinateOutOfRange x y) := dif_neg (by omega)

theorem gfxDraw_off_grid : gfxDraw x y b s = .error (.coordinateOutOfRange x y) := dif_neg (by omega)

end

/-- Settles O56: the bounds check of each operation is the grid's, and on it the set and the draw write
one pixel. -/
theorem framebufferOperations : Obligations.FramebufferOperations := by
  intro s b
  constructor
  · intro x y
    refine ⟨gfxGet_on_grid x y s, ?set, ?draw⟩
    case set =>
      exact ⟨_, gfxSet_on_grid x y b s, rfl, pixel_setPixel_self s.fb x y b,
        fun _ _ hne => pixel_setPixel_of_ne hne s.fb b⟩
    case draw =>
      exact ⟨_, gfxDraw_on_grid x y b s, rfl, pixel_drawPixel_self s.fb x y b,
        fun _ _ hne => pixel_drawPixel_of_ne hne s.fb b⟩
  · intro x y h
    exact ⟨gfxGet_off_grid h s, gfxSet_off_grid h b s, gfxDraw_off_grid h b s⟩

end Sys2Proof.Proofs
end

section
/-!
PROOFS. The host's keypad operations (60_exceptions.md R176 to R178).
-/

namespace Sys2Proof.Proofs

open Sys2Proof.Machine

section
variable {k : Nat} (h : k < 16) (s : State)

theorem keyPress_of_lt : keyPress k s =
    .ok { s with key := s.key.set k true, anyKey := true, lastKey := ⟨k, h⟩ } := dif_pos h

theorem keyRelease_of_lt :
    keyRelease k s = .ok { s with key := s.key.set k false, anyKey := false } := dif_pos h

theorem keyIsPressed_of_lt : keyIsPressed k s = .ok s.key[k] := dif_pos h

end

section
variable {k : Nat} (h : k ≥ 16) (s : State)
include h

theorem keyPress_of_ge : keyPress k s = .error (.invalidKey k) := dif_neg (Nat.not_lt_of_ge h)

theorem keyRelease_of_ge : keyRelease k s = .error (.invalidKey k) := dif_neg (Nat.not_lt_of_ge h)

theorem keyIsPressed_of_ge : keyIsPressed k s = .error (.invalidKey k) :=
  dif_neg (Nat.not_lt_of_ge h)

end

/-- Settles O54: each operation checks the key's number and then makes its writes and no other. -/
theorem keypadOperations : Obligations.KeypadOperations := by
  intro k s
  constructor
  · intro h
    exact ⟨keyPress_of_lt h s, keyRelease_of_lt h s, keyIsPressed_of_lt h s⟩
  · intro h
    exact ⟨keyPress_of_ge h s, keyRelease_of_ge h s, keyIsPressed_of_ge h s⟩

end Sys2Proof.Proofs
end

section
/-!
PROOFS. The encoder and the decoder are inverse to each other, and the words without an instruction are
the listed ones (30_encoding.md R70 to R82).
-/

namespace Sys2Proof.Proofs

/-! ### Decoding an encoded instruction -/

/-- The fields of a word form are the operands it was made of, and its fixed nibbles pick the arm of the
dispatch. -/
theorem decode_encode (i : Instr) : decode (encode i) = .ok i := by
  cases i with
  | cls | ret => rfl
  | jp | call | ldI | jpV0 => simp [encode, decode]
  | seImm | sneImm | ldImm | addImm | rnd => simp [encode, decode]
  | seReg => simp [encode, decode, decode5]
  | ldReg | orReg | andReg | xorReg | addReg | sub | shr | subn | shl => simp [encode, decode, decode8]
  | sneReg => simp [encode, decode, decode9]
  | drw => simp [encode, decode]
  | skp | sknp => simp [encode, decode, decodeE]
  | ldVxDt | ldVxK | ldDtVx | ldStVx | addI | ldF | ldB | stRegs | ldRegs =>
    simp [encode, decode, decodeF]

theorem decodeBytes_cons_cons (hi lo : Byte) (rest : List Byte) :
    decodeBytes (hi :: lo :: rest) = (decode (beWord hi lo)).map fun i => (i, rest) := by
  cases h : decode (beWord hi lo) <;> simp [decodeBytes, h, Except.map]

/-- Settles O1: the decoder finds the form's nibbles and fields again, and the two bytes compose to the
word. -/
theorem decodeOfEncodeIsTheInstruction : Obligations.DecodeOfEncodeIsTheInstruction := by
  intro i rest
  refine ⟨decode_encode i, ?_⟩
  calc decodeBytes (encodeBytes i ++ rest)
      = (decode (beWord (hiByte (encode i)) (loByte (encode i)))).map fun j => (j, rest) :=
        decodeBytes_cons_cons _ _ _
    _ = .ok (i, rest) := by rw [beWord_hiByte_loByte, decode_encode]; rfl

/-! ### Encoding a decoded word -/

theorem formNNN_fieldNNN {op : Word} {t : Nat} (h : family op = BitVec.ofNat 4 t) (ht : t < 16) :
    formNNN t (fieldNNN op) = op := by
  rw [family_eq_iff, BitVec.toNat_ofNat] at h
  apply BitVec.eq_of_toNat_eq
  rw [formNNN_toNat ht, fieldNNN_toNat]
  omega

theorem formXNN_fields {op : Word} {t : Nat} {nn : Byte} (hf : family op = BitVec.ofNat 4 t)
    (hl : lowByte op = nn) (ht : t < 16) : formXNN t (fieldX op) nn = op := by
  rw [family_eq_iff, BitVec.toNat_ofNat] at hf
  rw [lowByte_eq_iff] at hl
  apply BitVec.eq_of_toNat_eq
  rw [formXNN_toNat ht, fieldX_val]
  omega

theorem formXNN_fieldNN {op : Word} {t : Nat} (h : family op = BitVec.ofNat 4 t) (ht : t < 16) :
    formXNN t (fieldX op) (fieldNN op) = op := formXNN_fields h rfl ht

theorem formXYN_fields {op : Word} {t : Nat} {n : Fin 16} (hf : family op = BitVec.ofNat 4 t)
    (hl : lowNibble op = BitVec.ofNat 4 n.val) (ht : t < 16) :
    formXYN t (fieldX op) (fieldY op) n = op := by
  rw [family_eq_iff, BitVec.toNat_ofNat] at hf
  rw [lowNibble_eq_iff, BitVec.toNat_ofNat] at hl
  apply BitVec.eq_of_toNat_eq
  rw [formXYN_toNat ht, fieldX_val, fieldY_val]
  omega

theorem formXYN_fieldN {op : Word} {t : Nat} (h : family op = BitVec.ofNat 4 t) (ht : t < 16) :
    formXYN t (fieldX op) (fieldY op) (fieldN op) = op :=
  formXYN_fields h ((lowNibble_eq_iff op _).mpr (by rw [← fieldN_val]; simp)) ht

/-- A row's mask keeps exactly the fixed bits of its form, so the fields are all the rest of the word. -/
theorem encode_make_of_matches (op : Word) :
    ∀ r ∈ opcodeTable, r.matches op = true → encode (r.make op) = op := by
  simp only [opcodeTable, List.cons_append, List.nil_append, List.forall_mem_cons, matches_iff,
    and_F000_eq_iff, and_F00F_eq_iff, and_F0FF_eq_iff, and_FFFF_eq_iff, family_ofNat,
    lowNibble_ofNat, lowByte_ofNat, Nat.reduceDiv, BitVec.reduceAnd, BitVec.reduceOfNat, encode]
  refine ⟨fun h => h.2.symm, fun h => h.2.symm, ?_⟩
  simp +contextual [formNNN_fieldNNN, formXNN_fields, formXNN_fieldNN, formXYN_fields,
    formXYN_fieldN]

/-- Settles O2: the word matches the row that made the instruction, and the row's form gives it back. -/
theorem eachInstructionHasOneWord : Obligations.EachInstructionHasOneWord := by
  intro op i h
  rw [decode_eq_decodeByRows] at h
  obtain ⟨r, hr, hm, rfl⟩ := exists_matching_row_of_decodeByRows h
  exact encode_make_of_matches op r hr hm

/-! ### The words that are no instruction -/

theorem wellFormed_encode (i : Instr) : wellFormed (encode i) = true := by
  cases i with
  | cls => exact Laws.Encoding.cls
  | ret => exact Laws.Encoding.ret
  | jp nnn => exact Laws.Encoding.jp nnn
  | call nnn => exact Laws.Encoding.call nnn
  | seImm x nn => exact Laws.Encoding.seImm x nn
  | sneImm x nn => exact Laws.Encoding.sneImm x nn
  | seReg x y => exact Laws.Encoding.seReg x y
  | ldImm x nn => exact Laws.Encoding.ldImm x nn
  | addImm x nn => exact Laws.Encoding.addImm x nn
  | ldReg x y => exact Laws.Encoding.ldReg x y
  | orReg x y => exact Laws.Encoding.orReg x y
  | andReg x y => exact Laws.Encoding.andReg x y
  | xorReg x y => exact Laws.Encoding.xorReg x y
  | addReg x y => exact Laws.Encoding.addReg x y
  | sub x y => exact Laws.Encoding.sub x y
  | shr x y => exact Laws.Encoding.shr x y
  | subn x y => exact Laws.Encoding.subn x y
  | shl x y => exact Laws.Encoding.shl x y
  | sneReg x y => exact Laws.Encoding.sneReg x y
  | ldI nnn => exact Laws.Encoding.ldI nnn
  | jpV0 nnn => exact Laws.Encoding.jpV0 nnn
  | rnd x nn => exact Laws.Encoding.rnd x nn
  | drw x y n => exact Laws.Encoding.drw x y n
  | skp x => exact Laws.Encoding.skp x
  | sknp x => exact Laws.Encoding.sknp x
  | ldVxDt x => exact Laws.Encoding.ldVxDt x
  | ldVxK x => exact Laws.Encoding.ldVxK x
  | ldDtVx x => exact Laws.Encoding.ldDtVx x
  | ldStVx x => exact Laws.Encoding.ldStVx x
  | addI x => exact Laws.Encoding.addI x
  | ldF x => exact Laws.Encoding.ldF x
  | ldB x => exact Laws.Encoding.ldB x
  | stRegs x => exact Laws.Encoding.stRegs x
  | ldRegs x => exact Laws.Encoding.ldRegs x

theorem exists_decode0 {op : Word} (h : wellFormed0 op = true) : ∃ i, decode0 op = .ok i := by
  simp only [wellFormed0, Bool.or_eq_true, beq_iff_eq] at h
  simp only [decode0, ← BitVec.toNat_inj]
  rcases h with h | h <;> simp [h]

theorem lowNibble_of_wellFormed59 {op : Word} (h : wellFormed59 op = true) : lowNibble op = 0x0#4 :=
  (lowNibble_eq_iff op _).mpr (by simpa [wellFormed59] using h)

theorem exists_decode8 {op : Word} (h : wellFormed8 op = true) : ∃ i, decode8 op = .ok i := by
  simp only [wellFormed8, ← lowNibble_toNat, List.contains_eq_mem, List.mem_cons, List.not_mem_nil,
    Bool.not_eq_true', decide_eq_false_iff_not] at h
  simp only [decode8, ← BitVec.toNat_inj]
  have hlt := (lowNibble op).isLt
  generalize (lowNibble op).toNat = n at h hlt
  have hn : n = 0 ∨ n = 1 ∨ n = 2 ∨ n = 3 ∨ n = 4 ∨ n = 5 ∨ n = 6 ∨ n = 7 ∨ n = 14 := by omega
  rcases hn with hn | hn | hn | hn | hn | hn | hn | hn | hn <;> simp [hn]

theorem exists_decodeE {op : Word} (h : wellFormedE op = true) : ∃ i, decodeE op = .ok i := by
  simp only [wellFormedE, ← lowByte_toNat, List.contains_eq_mem, List.mem_cons, List.not_mem_nil,
    decide_eq_true_eq, or_false] at h
  simp only [decodeE, ← BitVec.toNat_inj]
  rcases h with h | h <;> simp [h]

theorem exists_decodeF {op : Word} (h : wellFormedF op = true) : ∃ i, decodeF op = .ok i := by
  simp only [wellFormedF, ← lowByte_toNat, List.contains_eq_mem, List.mem_cons, List.not_mem_nil,
    decide_eq_true_eq, or_false] at h
  simp only [decodeF, ← BitVec.toNat_inj]
  rcases h with h | h | h | h | h | h | h | h | h <;> simp [h]

theorem exists_decode_of_wellFormed {op : Word} (h : wellFormed op = true) :
    ∃ i, decode op = .ok i := by
  simp only [wellFormed, ← family_toNat] at h
  rcases family_cases (family op) with
    hf | hf | hf | hf | hf | hf | hf | hf | hf | hf | hf | hf | hf | hf | hf | hf <;>
  simp [hf] at h <;> simp [decode, hf]
  · exact exists_decode0 h
  · exact ⟨_, if_pos (lowNibble_of_wellFormed59 h)⟩
  · exact exists_decode8 h
  · exact ⟨_, if_pos (lowNibble_of_wellFormed59 h)⟩
  · exact exists_decodeE h
  · exact exists_decodeF h

/-- The decoder rejects a word by no other verdict than *invalid* of that word. -/
theorem decode_error_iff (op : Word) :
    decode op = .error (.invalidInstruction op) ↔ ¬ ∃ i, decode op = .ok i := by
  rw [decode_eq_decodeByRows, decodeByRows]
  cases opcodeTable.find? fun r => r.matches op <;> simp

/-- Settles O4: the check accepts every encoding, and every word it accepts meets an arm of the dispatch. -/
theorem invalidWordsAreTheListedOnes : Obligations.InvalidWordsAreTheListedOnes := by
  intro op
  have hok : (∃ i, decode op = .ok i) ↔ wellFormed op = true := by
    refine ⟨?_, exists_decode_of_wellFormed⟩
    rintro ⟨i, hi⟩
    rw [← eachInstructionHasOneWord op i hi]
    exact wellFormed_encode i
  exact ⟨by rw [decode_error_iff, hok, Bool.not_eq_true], hok⟩

/-- Settles O5: nine words written out, each run through the dispatch. -/
theorem writtenOutWordsDecode : Obligations.WrittenOutWordsDecode :=
  ⟨rfl, rfl, rfl, rfl, rfl, rfl, rfl, rfl, rfl⟩

end Sys2Proof.Proofs
end

section
/-!
PROOFS. What each instruction leaves alone, and the fault it raises (10_state.md R20 to R37, 20_memory.md
R59, 60_exceptions.md R162). A next state is reached from the state before by named writes; each write
keeps the frame of every instruction whose table entry allows it.
-/

namespace Sys2Proof.Proofs

open Sys2Proof.Machine

/-- Everything outside the entries of `i` in the tables of what it may touch is in `t` as in `s`. -/
structure ExecFrame (i : Instr) (s t : State) : Prop where
  regs : ∀ k, i.writesV k = false → t.v[k] = s.v[k]
  index : i.writesI = false → t.i = s.i
  pc : i.writesPc = false → t.pc = s.pc
  stack : i.usesStack = false → t.sp = s.sp ∧ t.stack = s.stack
  mem : ∀ a, ¬ (s.i.toNat ≤ a ∧ a < s.i.toNat + i.storeCount) → t.mem.read a = s.mem.read a
  memWf : s.mem.wf = true → t.mem.wf = true
  screen : i.writesFrame = false → t.fb = s.fb ∧ t.drawFlag = s.drawFlag
  delay : (∀ x, i ≠ .ldDtVx x) → t.dt = s.dt
  sound : (∀ x, i ≠ .ldStVx x) → t.st = s.st
  keypad : t.key = s.key ∧ t.anyKey = s.anyKey ∧ t.lastKey = s.lastKey
  turns : t.agenda = s.agenda ∧ t.opcode = s.opcode

namespace ExecFrame

theorem refl (i : Instr) (s : State) : ExecFrame i s s where
  regs _ _ := rfl
  index _ := rfl
  pc _ := rfl
  stack _ := ⟨rfl, rfl⟩
  mem _ _ := rfl
  memWf h := h
  screen _ := ⟨rfl, rfl⟩
  delay _ := rfl
  sound _ := rfl
  keypad := ⟨rfl, rfl, rfl⟩
  turns := ⟨rfl, rfl⟩

section
variable {i : Instr} {s t : State} (h : ExecFrame i s t)
include h

theorem withV {v : Vector Byte 16} (hv : ∀ k, i.writesV k = false → v[k] = t.v[k]) :
    ExecFrame i s { t with v := v } :=
  { h with regs := fun k hk => (hv k hk).trans (h.regs k hk) }

theorem setV {x : Reg} (hx : i.writesV x = true) (b : Byte) : ExecFrame i s (setV x b t) := by
  refine h.withV fun k hk => ?_
  have : x.val ≠ k.val := fun e => by simp [Fin.ext e, hk] at hx
  simp [this]

theorem setFlag (hx : i.writesV 0xF = true) (c : Bool) : ExecFrame i s (setFlag c t) := h.setV hx _

theorem withPc (hi : i.writesPc = true) (w : Word) : ExecFrame i s { t with pc := w } :=
  { h with pc := fun h0 => absurd h0 (by simp [hi]) }

theorem skipIf (hi : i.writesPc = true) (c : Bool) : ExecFrame i s (skipIf c t) := by
  cases c
  · exact h
  · exact h.withPc hi _

theorem withI (hi : i.writesI = true) (w : Word) : ExecFrame i s { t with i := w } :=
  { h with index := fun h0 => absurd h0 (by simp [hi]) }

theorem withStackPc (hi : i.usesStack = true) (hi' : i.writesPc = true) (p : Fin 17)
    (l : Vector Word 16) (w : Word) : ExecFrame i s { t with sp := p, stack := l, pc := w } :=
  { h with
    stack := fun h0 => absurd h0 (by simp [hi])
    pc := fun h0 => absurd h0 (by simp [hi']) }

theorem withFb (hi : i.writesFrame = true) (fb : FrameBuffer) : ExecFrame i s { t with fb := fb } :=
  { h with screen := fun h0 => absurd h0 (by simp [hi]) }

theorem markDrawn (hi : i.writesFrame = true) : ExecFrame i s (markDrawn t) :=
  { h with screen := fun h0 => absurd h0 (by simp [hi]) }

theorem withMem {m : Memory}
    (hm : ∀ a, ¬ (s.i.toNat ≤ a ∧ a < s.i.toNat + i.storeCount) → m.read a = t.mem.read a)
    (hwf : t.mem.wf = true → m.wf = true) : ExecFrame i s { t with mem := m } :=
  { h with mem := fun a ha => (hm a ha).trans (h.mem a ha), memWf := fun hs => hwf (h.memWf hs) }

theorem countDraw : ExecFrame i s (countDraw t) := { h with }

theorem recordFault (f : Fault) : ExecFrame i s (recordFault f t) := { h with }

end

/-- Bytes stored from I upward, as many as the instruction stores or, where memory ends, fewer. -/
theorem writeList {i : Instr} {s : State} {ws : List Byte} (hc : ws.length ≤ i.storeCount)
    (hm : s.i.toNat + ws.length ≤ 4096 ∨ ws = []) :
    ExecFrame i s { s with mem := s.mem.writeList s.i.toNat ws } := by
  refine (refl i s).withMem (fun a ha => ?_) fun hwf => ?_
  · rw [Memory.read_writeList, dif_neg (by omega)]
  · rcases hm with hm | rfl
    · exact Memory.wf_writeList hm hwf
    · exact hwf

end ExecFrame

theorem loadList_take_regsUpTo (v : Vector Byte 16) (m : Memory) (a n : Nat) (x k : Reg) :
    (loadList v m a ((regsUpTo x).take n))[k] =
      if k ≤ x ∧ k.val < n then m.read (a + k.val) else v[k] := by
  rw [regsUpTo, List.take_take, loadList_take_finRange]
  congr 1
  simp only [Fin.le_def, eq_iff_iff]
  omega

theorem loadList_regsUpTo (v : Vector Byte 16) (m : Memory) (a : Nat) (x k : Reg) :
    (loadList v m a (regsUpTo x))[k] = if k ≤ x then m.read (a + k.val) else v[k] := by
  rw [regsUpTo, loadList_take_finRange]
  congr 1
  simp only [Fin.le_def, eq_iff_iff]
  omega

/-- No address of the access lies above 4095. -/
theorem accessFault_of_le {base count : Nat} (h : count = 0 ∨ base + count ≤ 4096) :
    accessFault base count = none := if_pos (by omega)

/-- Some address of the access lies above 4095, and the first is recorded. -/
theorem accessFault_of_gt {base count : Nat} (h0 : count ≠ 0) (h : 4096 < base + count) :
    accessFault base count = some (.addressOutOfRange (max base 4096)) := if_neg (by omega)

/-- The instruction answers a next state, within its frame and with the fault of the table of
60_exceptions.md R162 where none was recorded. -/
def AnswersAsTabled (i : Instr) (s : State) : Prop :=
  ∃ t, exec i s = .next t ∧ ExecFrame i s t ∧ t.fault = s.fault.or (faultOf i s)

/-- An instruction that the table gives no fault leaves the record alone. -/
theorem answersAsTabled_of_no_fault {i : Instr} {s t : State} (h : exec i s = .next t)
    (hframe : ExecFrame i s t) (hf : t.fault = s.fault) (h0 : faultOf i s = none) :
    AnswersAsTabled i s := ⟨t, h, hframe, by rw [hf, h0, Option.or_none]⟩

/-- An instruction that raises does so in a state within its frame. -/
theorem answersAsTabled_of_fault {i : Instr} {s t : State} {f : Fault}
    (h : exec i s = .next (recordFault f t)) (hframe : ExecFrame i s t) (hf : t.fault = s.fault)
    (h1 : faultOf i s = some f) : AnswersAsTabled i s :=
  ⟨_, h, hframe.recordFault f, by rw [recordFault_fault, hf, h1]⟩

/-! ### The instructions that can raise -/

section
variable (x y : Reg) (n : Fin 16) (nnn : Addr12) (s : State)

theorem ret_answersAsTabled : AnswersAsTabled .ret s := by
  rcases execRet_cases s with ⟨k, hk, he⟩ | ⟨h0, he⟩
  · exact answersAsTabled_of_no_fault he ((ExecFrame.refl _ s).withStackPc rfl rfl _ _ _) rfl
      (by simp [faultOf, hk])
  · exact answersAsTabled_of_fault he (.refl _ s) rfl (by simp [faultOf, h0])

theorem call_answersAsTabled : AnswersAsTabled (.call nnn) s := by
  rcases execCall_cases nnn s with ⟨k, hk, he⟩ | ⟨h16, he⟩
  · exact answersAsTabled_of_no_fault he ((ExecFrame.refl _ s).withStackPc rfl rfl _ _ _) rfl
      (by simp [faultOf, hk, k.isLt.ne])
  · exact answersAsTabled_of_fault he (.refl _ s) rfl (by simp [faultOf, h16])

theorem drw_answersAsTabled : AnswersAsTabled (.drw x y n) s := by
  rcases execDrw_cases x y n s with ⟨hn, coll, fb, he, -⟩ | ⟨hn0, hn, fb, he, -⟩
  · exact answersAsTabled_of_no_fault he
      ((((ExecFrame.refl _ s).withFb rfl fb).setFlag rfl coll).markDrawn rfl) rfl
      (accessFault_of_le hn)
  · exact answersAsTabled_of_fault he ((ExecFrame.refl _ s).withFb rfl fb) rfl
      (accessFault_of_gt hn0 hn)

theorem ldB_answersAsTabled : AnswersAsTabled (.ldB x) s := by
  rcases execLdB_cases x s with ⟨h, he⟩ | ⟨h, he⟩
  · refine answersAsTabled_of_no_fault he (.writeList ?_ (.inl ?_)) rfl (accessFault_of_le (by omega))
    · simp [Instr.storeCount, decimalDigits]
    · simp [decimalDigits]; omega
  · refine answersAsTabled_of_fault he (.writeList ?_ ?_) rfl
      (accessFault_of_gt (by decide) (by omega))
    · simp [Instr.storeCount, decimalDigits]
    · simp [decimalDigits]; omega

theorem stRegs_answersAsTabled : AnswersAsTabled (.stRegs x) s := by
  rcases execStRegs_cases x s with ⟨h, he⟩ | ⟨h, he⟩
  · refine answersAsTabled_of_no_fault he ((ExecFrame.writeList ?_ (.inl ?_)).withI rfl _) rfl
      (accessFault_of_le (by omega))
    · simp [Instr.storeCount, regsUpTo_length]
    · simp [regsUpTo_length]; omega
  · refine answersAsTabled_of_fault he (.writeList ?_ ?_) rfl
      (accessFault_of_gt (by omega) (by omega))
    · simp [Instr.storeCount, regsUpTo_length]
    · simp [regsUpTo_length]; omega

theorem ldRegs_answersAsTabled : AnswersAsTabled (.ldRegs x) s := by
  have hx : ∀ {k}, Instr.writesV k (.ldRegs x) = false → ¬ k ≤ x := of_decide_eq_false
  rcases execLdRegs_cases x s with ⟨h, he⟩ | ⟨h, he⟩
  · refine answersAsTabled_of_no_fault he (((ExecFrame.refl _ s).withV fun k hk => ?_).withI rfl _) rfl
      (accessFault_of_le (by omega))
    rw [loadList_regsUpTo, if_neg (hx hk)]
  · refine answersAsTabled_of_fault he ((ExecFrame.refl _ s).withV fun k hk => ?_) rfl
      (accessFault_of_gt (by omega) (by omega))
    rw [loadList_take_regsUpTo, if_neg fun h => hx hk h.1]

end

/-! ### Every instruction -/

theorem exec_answersAsTabled (i : Instr) (s : State) : AnswersAsTabled i s := by
  have hs := ExecFrame.refl i s
  cases i with
  | ret => exact ret_answersAsTabled s
  | call nnn => exact call_answersAsTabled nnn s
  | drw x y n => exact drw_answersAsTabled x y n s
  | ldB x => exact ldB_answersAsTabled x s
  | stRegs x => exact stRegs_answersAsTabled x s
  | ldRegs x => exact ldRegs_answersAsTabled x s
  | cls => exact answersAsTabled_of_no_fault rfl ((hs.withFb rfl _).markDrawn rfl) rfl rfl
  | jp | jpV0 => exact answersAsTabled_of_no_fault rfl (hs.withPc rfl _) rfl rfl
  | seImm | sneImm | seReg | sneReg | skp | sknp =>
    exact answersAsTabled_of_no_fault rfl (hs.skipIf rfl _) (skipIf_fault _ s) rfl
  | ldImm x | addImm x | ldReg x | orReg x | andReg x | xorReg x | ldVxDt x =>
    exact answersAsTabled_of_no_fault rfl (hs.setV (beq_self_eq_true x) _) rfl rfl
  | addReg x | sub x | shr x | subn x | shl x =>
    exact answersAsTabled_of_no_fault rfl ((hs.setFlag rfl _).setV (by simp [Instr.writesV]) _) rfl rfl
  | rnd x => exact answersAsTabled_of_no_fault rfl (hs.countDraw.setV (beq_self_eq_true x) _) rfl rfl
  | ldVxK x =>
    by_cases hk : s.anyKey = true
    · exact answersAsTabled_of_no_fault (if_pos hk) (hs.setV (beq_self_eq_true x) _) rfl rfl
    · exact answersAsTabled_of_no_fault (if_neg hk) (hs.withPc rfl _) rfl rfl
  | ldI | addI | ldF => exact answersAsTabled_of_no_fault rfl (hs.withI rfl _) rfl rfl
  | ldDtVx x =>
    exact answersAsTabled_of_no_fault rfl { hs with delay := fun h => absurd rfl (h x) } rfl rfl
  | ldStVx x =>
    exact answersAsTabled_of_no_fault rfl { hs with sound := fun h => absurd rfl (h x) } rfl rfl

theorem execFrame {i : Instr} {s t : State} (h : exec i s = .next t) : ExecFrame i s t := by
  obtain ⟨t', ht', hframe, -⟩ := exec_answersAsTabled i s
  rw [h] at ht'
  cases ht'
  exact hframe

theorem exec_fault {i : Instr} {s t : State} (h : exec i s = .next t) :
    t.fault = s.fault.or (faultOf i s) := by
  obtain ⟨t', ht', -, hfault⟩ := exec_answersAsTabled i s
  rw [h] at ht'
  cases ht'
  exact hfault

/-- Settles O12: the fault is the table's, whichever of its ways the instruction ends. -/
theorem instructionsFaultExactlyAsTabled : Obligations.InstructionsFaultExactlyAsTabled := by
  intro i s hs
  obtain ⟨t, ht, -, hfault⟩ := exec_answersAsTabled i s
  exact ⟨t, ht, by rw [hfault, hs, Option.none_or]⟩

/-- Settles O18: the stack is in the frame of every instruction but the two. -/
theorem onlyCallAndReturnTouchTheStack : Obligations.OnlyCallAndReturnTouchTheStack :=
  fun _ _ _ hi h => (execFrame h).stack hi

/-- Settles O19: the cells outside the bytes stored are in every instruction's frame. -/
theorem onlyStoredBytesChange : Obligations.OnlyStoredBytesChange :=
  fun _ _ _ h => (execFrame h).mem

/-- Settles O20: each device is in the frame of the instructions that do not write it. -/
theorem devicesChangeOnlyByTheirInstructions : Obligations.DevicesChangeOnlyByTheirInstructions :=
  fun _ _ _ h => ⟨(execFrame h).keypad, (execFrame h).screen, (execFrame h).delay, (execFrame h).sound⟩

/-- Settles O21: a register the table does not give as written is in the instruction's frame. -/
theorem registersChangeOnlyAsTabled : Obligations.RegistersChangeOnlyAsTabled :=
  fun _ _ _ k hk h => (execFrame h).regs k hk

/-- Settles O23: I is in the frame of every instruction but its five writers. -/
theorem onlyIndexInstructionsWriteI : Obligations.OnlyIndexInstructionsWriteI :=
  fun _ _ _ hi h => (execFrame h).index hi

/-- Settles O24: PC is in the frame of every instruction that does not assign it. -/
theorem otherInstructionsFallThrough : Obligations.OtherInstructionsFallThrough :=
  fun _ _ _ hi h => (execFrame h).pc hi

end Sys2Proof.Proofs
end

section
/-!
PROOFS. What has no influence on an instruction (10_state.md R37, 20_memory.md R65, 60_exceptions.md R184):
registers it neither reads nor writes, the agenda, and a timer it does not access.
-/

namespace Sys2Proof.Proofs

open Sys2Proof.Machine

/-- Change the registers and the agenda. -/
def patch (g : Vector Byte 16 → Vector Byte 16) (l : List Turn → List Turn) (s : State) : State :=
  { s with v := g s.v, agenda := l s.agenda }

/-- The change `g` of the registers concerns none that `i` reads or writes. -/
structure Untouched (g : Vector Byte 16 → Vector Byte 16) (i : Instr) : Prop where
  read : ∀ k, i.readsV k = true → ∀ v, (g v)[k] = v[k]
  write : ∀ k, i.writesV k = true → ∀ v b, (g v).set k b = g (v.set k b)

section
variable {g : Vector Byte 16 → Vector Byte 16} (l : List Turn → List Turn) {i : Instr}

theorem Untouched.getV (h : Untouched g i) {x : Reg} (hx : i.readsV x = true) (s : State) :
    getV x (patch g l s) = getV x s := h.read x hx s.v

theorem Untouched.setV (h : Untouched g i) {x : Reg} (hx : i.writesV x = true) (b : Byte) (s : State) :
    setV x b (patch g l s) = patch g l (setV x b s) := by
  simp only [Machine.setV, patch, h.write x hx]

theorem Untouched.setFlag (h : Untouched g i) (hx : i.writesV 0xF = true) (c : Bool) (s : State) :
    setFlag c (patch g l s) = patch g l (setFlag c s) := h.setV l hx _ s

theorem skipIf_patch (c : Bool) (s : State) : skipIf c (patch g l s) = patch g l (skipIf c s) := by
  cases c <;> rfl

theorem finish_patch {α : Type} {k : α → State → State}
    (hk : ∀ a s, k a (patch g l s) = patch g l (k a s)) (r : Machine.Flow α) :
    (mapFlow (patch g l) r).finish k = mapNext (patch g l) (r.finish k) :=
  finish_mapFlow k hk (fun _ _ => rfl) r

theorem storeBytes_patch (a : Nat) (ws : List Byte) (s : State) :
    storeBytes a ws (patch g l s) = mapFlow (patch g l) (storeBytes a ws s) := by
  rw [storeBytes_eq, storeBytes_eq]
  split <;> rfl

theorem Untouched.loadList (h : Untouched g i) {xs : List Reg} (hx : ∀ x ∈ xs, i.writesV x = true)
    (v : Vector Byte 16) (m : Memory) (a : Nat) :
    loadList (g v) m a xs = g (loadList v m a xs) := by
  induction xs generalizing v a with
  | nil => rfl
  | cons x xs ih =>
    obtain ⟨hx, hxs⟩ := List.forall_mem_cons.mp hx
    rw [Machine.loadList, Machine.loadList, h.write x hx, ih hxs]

theorem Untouched.loadRegsFrom (h : Untouched g i) {xs : List Reg}
    (hx : ∀ x ∈ xs, i.writesV x = true) (a : Nat) (s : State) :
    loadRegsFrom a xs (patch g l s) = mapFlow (patch g l) (loadRegsFrom a xs s) := by
  have htake : ∀ n, ∀ x ∈ xs.take n, i.writesV x = true := fun n x hm => hx x (List.mem_of_mem_take hm)
  rw [loadRegsFrom_eq, loadRegsFrom_eq]
  split
  · simp only [mapFlow, patch, h.loadList hx]
  · simp only [mapFlow, patch, h.loadList (htake _)]

@[simp] theorem patch_fb (s : State) : (patch g l s).fb = s.fb := rfl
@[simp] theorem patch_anyKey (s : State) : (patch g l s).anyKey = s.anyKey := rfl
@[simp] theorem patch_lastKey (s : State) : (patch g l s).lastKey = s.lastKey := rfl
@[simp] theorem baseAddr_patch (s : State) : baseAddr (patch g l s) = baseAddr s := rfl

theorem withFb_patch (fb : FrameBuffer) (s : State) :
    { patch g l s with fb := fb } = patch g l { s with fb := fb } := rfl

theorem drawRows_patch (vx vy : Byte) (base rows r : Nat) (coll : Bool) (s : State) :
    drawRows vx vy base rows r coll (patch g l s) =
      mapFlow (patch g l) (drawRows vx vy base rows r coll s) := by
  induction rows generalizing r coll s with
  | zero => rfl
  | succ rows ih =>
    have hread : memRead (base + r) (patch g l s) = memRead (base + r) s := rfl
    rw [drawRows, drawRows, hread]
    cases memRead (base + r) s with
    | error e => rfl
    | ok w => simpa only [withFb_patch, patch_fb] using ih _ _ _

theorem le_of_mem_regsUpTo {x k : Reg} (h : k ∈ regsUpTo x) : k ≤ x := by
  obtain ⟨j, hj, rfl⟩ := List.mem_take_iff_getElem.mp h
  simp only [List.getElem_finRange, Fin.le_def]
  simp at hj ⊢
  omega

/-- What an instruction does is the same whatever lies in the registers it leaves alone and on the
agenda. -/
theorem exec_patch (h : Untouched g i) (s : State) :
    exec i (patch g l s) = mapNext (patch g l) (exec i s) := by
  cases i with
  | cls | jp | ldI => rfl
  | ret =>
    by_cases h0 : s.sp.val = 0 <;> simp [exec, execRet, popReturn, patch, h0] <;> rfl
  | call nnn =>
    by_cases h0 : s.sp.val < 16 <;> simp [exec, execCall, pushReturn, patch, h0] <;> rfl
  | jpV0 =>
    simp only [exec, execJpV0, h.getV l (beq_self_eq_true 0)]
    rfl
  | seImm x | sneImm x | skp x | sknp x =>
    simp only [exec, execSeImm, execSneImm, execSkp, execSknp, h.getV l (beq_self_eq_true x)]
    exact congrArg _ (skipIf_patch l _ s)
  | seReg x y | sneReg x y =>
    have hx := h.getV l (x := x) (by simp [Instr.readsV])
    have hy := h.getV l (x := y) (by simp [Instr.readsV])
    simp only [exec, execSeReg, execSneReg, hx, hy]
    exact congrArg _ (skipIf_patch l _ s)
  | ldImm x | ldVxDt x => exact congrArg _ (h.setV l (beq_self_eq_true x) _ _)
  | ldVxK x =>
    by_cases hk : s.anyKey = true
    · simp only [exec, execLdVxK, patch_anyKey, patch_lastKey, hk, h.setV l (beq_self_eq_true x)]
      rfl
    · simp only [exec, execLdVxK, patch_anyKey, hk]
      rfl
  | rnd x => exact congrArg _ (h.setV l (beq_self_eq_true x) _ (countDraw s))
  | addImm x =>
    simp only [exec, execAddImm, h.getV l (beq_self_eq_true x)]
    exact congrArg _ (h.setV l (beq_self_eq_true x) _ s)
  | ldReg x y =>
    simp only [exec, execLdReg, h.getV l (beq_self_eq_true y)]
    exact congrArg _ (h.setV l (beq_self_eq_true x) _ s)
  | orReg x y | andReg x y | xorReg x y =>
    have hx := h.getV l (x := x) (by simp [Instr.readsV])
    have hy := h.getV l (x := y) (by simp [Instr.readsV])
    simp only [exec, execOrReg, execAndReg, execXorReg, hx, hy]
    exact congrArg _ (h.setV l (beq_self_eq_true x) _ s)
  | addReg x y | sub x y | subn x y =>
    have hx := h.getV l (x := x) (by simp [Instr.readsV])
    have hy := h.getV l (x := y) (by simp [Instr.readsV])
    have hw := h.setV l (x := x) (by simp [Instr.writesV])
    simp only [exec, execAddReg, execSub, execSubn, subInto, subnInto, hx, hy, h.setFlag l rfl, hw, mapNext]
  | shr x y | shl x y =>
    have hy := h.getV l (beq_self_eq_true y)
    have hw := h.setV l (x := x) (by simp [Instr.writesV])
    simp only [exec, execShr, execShl, shrInto, shlInto, hy, h.setFlag l rfl, hw, mapNext]
  | ldDtVx x | ldStVx x | addI x | ldF x =>
    simp only [exec, execLdDtVx, execLdStVx, execAddI, execLdF, h.getV l (beq_self_eq_true x)]
    rfl
  | drw x y n =>
    have hx := h.getV l (x := x) (by simp [Instr.readsV])
    have hy := h.getV l (x := y) (by simp [Instr.readsV])
    simp only [exec, execDrw, hx, hy, drawRows_patch]
    exact finish_patch l (fun _ _ => congrArg markDrawn (h.setFlag l rfl ..)) _
  | ldB x =>
    simp only [exec, execLdB, h.getV l (beq_self_eq_true x), storeBytes_patch]
    exact finish_patch l (k := fun _ s' => s') (fun _ _ => rfl) _
  | stRegs x =>
    have hregs : (regsUpTo x).map (fun k => getV k (patch g l s)) = (regsUpTo x).map fun k => getV k s :=
      List.map_congr_left fun k hk => h.getV l (decide_eq_true (le_of_mem_regsUpTo hk)) s
    simp only [exec, execStRegs, hregs, baseAddr_patch, storeBytes_patch]
    exact finish_patch l (k := fun _ => advanceI x) (fun _ _ => rfl) _
  | ldRegs x =>
    have hw : ∀ k ∈ regsUpTo x, Instr.writesV k (.ldRegs x) = true :=
      fun k hk => decide_eq_true (le_of_mem_regsUpTo hk)
    simp only [exec, execLdRegs, h.loadRegsFrom l hw]
    exact finish_patch l (k := fun _ => advanceI x) (fun _ _ => rfl) _

end

/-- Settles O22: overwriting one register concerns none of those the instruction reads or writes. -/
theorem untabledRegistersAreIrrelevant : Obligations.UntabledRegistersAreIrrelevant := by
  intro i s k b hr hw
  have hne : ∀ {x : Reg} {p : Reg → Bool}, p k = false → p x = true → k.val ≠ x.val := by
    intro x p hk hx e
    simp [← Fin.ext e, hk] at hx
  have h : Untouched (fun v => v.set k b) i :=
    { read := fun x hx v => by simp [hne (p := (i.readsV ·)) hr hx]
      write := fun x hx v c => Vector.set_comm _ _ (hne (p := (i.writesV ·)) hw hx) }
  exact exec_patch id h s

/-- Settles O25: an agenda in place of another is a change that concerns no instruction, and agenda and
OPCODE are in every frame. -/
theorem instructionsIgnoreTheAgenda : Obligations.InstructionsIgnoreTheAgenda :=
  fun _ s l => ⟨exec_patch (g := id) (fun _ => l) ⟨fun _ _ _ => rfl, fun _ _ _ _ => rfl⟩ s,
    fun _ h => (execFrame h).turns⟩

/-- A timer is in the frame of an instruction that does not access it. -/
theorem timerGet_of_exec {T : Timer} {i : Instr} {s t : State} (hi : i.usesTimer T = false)
    (h : exec i s = .next t) : timerGet T t = timerGet T s := by
  cases T with
  | delay => exact (execFrame h).delay (by rintro x rfl; cases hi)
  | sound => exact (execFrame h).sound (by rintro x rfl; cases hi)

/-- Settles O26: the tick sets the timer to a value that the instruction neither sees nor changes. -/
theorem ticksCommuteWithOtherInstructions : Obligations.TicksCommuteWithOtherInstructions := by
  intro i s T hi
  obtain ⟨t, ht, -⟩ := exec_answersAsTabled i s
  calc exec i (timerTick T s)
      = mapNext (timerSet T (countDown (timerGet T s))) (exec i s) := exec_timerSet hi _ s
    _ = mapNext (timerTick T) (exec i s) := by
        simp only [ht, mapNext, timerTick, timerGet_of_exec hi ht]

end Sys2Proof.Proofs
end

section
/-!
PROOFS. The cycle: the fetch, the decoded instruction, DRAWFLAG, the faults a cycle can record
(40_cycle_fetch_decode.md R90 to R96).
-/

namespace Sys2Proof.Proofs

open Sys2Proof.Machine

/-! ### The CPU's turn, by what lies at PC -/

section
variable {s : State} {rest : List Turn} (hturn : CpuTurn s rest)
include hturn

theorem step_of_fetches {op : Word} (h : Fetches s op) :
    step s = decodeExecute op (fetched op { s with agenda := rest }) := by
  rw [step_of_cpuTurn hturn]
  exact cycle_of_fetches (s := { s with agenda := rest }) h

theorem step_of_pc_gt (hf : s.fault = none) (hp : 4094 < s.pc.toNat) :
    step s = .next { s with
      agenda := rest, drawFlag := false, fault := some (.addressOutOfRange (max s.pc.toNat 4096)) } := by
  rw [step_of_cpuTurn hturn]
  rcases cycle_cases { s with agenda := rest } with ⟨f, hs, -⟩ | ⟨-, -, he⟩ | ⟨-, hle, -⟩
  · cases hf.symm.trans hs
  · exact he
  · exact absurd hle (Nat.not_le_of_gt hp)

end

/-- The two bytes at PC, where both are in memory, are the word a cycle fetches. -/
theorem fetches_beWord {s : State} (hf : s.fault = none) (hp : s.pc.toNat ≤ 4094) :
    Fetches s (beWord (s.mem.read s.pc.toNat) (s.mem.read (s.pc.toNat + 1))) :=
  ⟨hf, hp, (hiByte_beWord _ _).symm, (loByte_beWord _ _).symm⟩

theorem decodeExecute_of_ok {op : Word} {i : Instr} (h : decode op = .ok i) (s : State) :
    decodeExecute op s = exec i s := by
  simp only [decodeExecute, h]

theorem decodeExecute_of_invalid {op : Word} (h : ∀ i, decode op ≠ .ok i) (s : State) :
    decodeExecute op s = raise (.invalidInstruction op) s := by
  unfold decodeExecute
  split
  next i hi => exact absurd hi (h i)
  next => rfl

/-- Settles O6: the CPU's turn comes in two forms, and in both the fetched word runs. -/
theorem stepRunsTheDecodedInstruction : Obligations.StepRunsTheDecodedInstruction := by
  intro s op i hfetch hi
  have hrun : ∀ rest, CpuTurn s rest → step s = exec i (fetched op { s with agenda := rest }) := by
    intro rest hturn
    rw [step_of_fetches hturn hfetch, decodeExecute_of_ok hi]
  exact ⟨fun h => by rw [hrun [] (.inr ⟨h, rfl⟩), ← h]; rfl, fun rest h => hrun rest (.inl h)⟩

/-- Settles O8: the fetch reads the word at PC, or raises at the first of its two addresses that is bad. -/
theorem fetchReadsWordAndAdvancesPc : Obligations.FetchReadsWordAndAdvancesPc := by
  intro s rest hf hturn
  refine ⟨fun hp => ?_, fun hp => ?_, fun hp => ?_⟩
  · exact ⟨_, beWord_toNat _ _, step_of_fetches hturn (fetches_beWord hf hp)⟩
  · rw [step_of_pc_gt hturn hf (by omega), max_eq_right (by omega)]
  · rw [step_of_pc_gt hturn hf (by omega), max_eq_left hp]

/-- Settles O9: the dispatch raises, in the state that the fetch left. -/
theorem invalidWordRaisesInvalidInstruction : Obligations.InvalidWordRaisesInvalidInstruction := by
  intro s rest op hfetch hturn hinvalid
  have hf : (fetched op { s with agenda := rest }).fault = none := hfetch.1
  rw [step_of_fetches hturn hfetch, decodeExecute_of_invalid hinvalid, raise_of_none hf]
  rfl

/-! ### The stopped machine -/

theorem step_of_fault {s : State} {f : Fault} {rest : List Turn} (hf : s.fault = some f)
    (hturn : CpuTurn s rest) : step s = .fault f := by
  rw [step_of_cpuTurn hturn]
  simp only [cycle, hf]

/-- An event leaves a recorded fault as it is, whether its operation completes or raises. -/
theorem deliver_keeps_fault (e : Event) {s : State} {f : Fault} (hf : s.fault = some f) :
    ∃ t, deliver e s = .next t ∧ t.fault = some f := by
  rcases hostOp_cases e.call s with ⟨-, r, t, he, ht, -⟩ | ⟨g, hg, -⟩
  · exact ⟨t, by rw [deliver, hostCall_of_ok he], by rw [ht, hf]⟩
  · exact ⟨_, deliver_of_hostFault hg s, by rw [recordFault_fault, hf, Option.some_or]⟩

/-- Settles O10: the record stops every cycle, and no event overwrites it. -/
theorem stoppedMachineTakesNoCycle : Obligations.StoppedMachineTakesNoCycle := by
  intro s f hf
  refine ⟨fun h => step_of_fault hf (.inr ⟨h, rfl⟩), fun rest h => step_of_fault hf (.inl h), ?_⟩
  intro e rest h
  rw [step_of_agenda_event h]
  exact deliver_keeps_fault e hf

/-! ### DRAWFLAG -/

/-- The words of the two instructions that draw. -/
theorem writesFrame_iff_of_decode {op : Word} {i : Instr} (h : decode op = .ok i) :
    i.writesFrame = true ↔ op = 0x00E0#16 ∨ op &&& 0xF000#16 = 0xD000#16 := by
  constructor
  · intro hw
    have hop : encode i = op := eachInstructionHasOneWord op i h
    cases i with
    | cls => exact .inl hop.symm
    | drw x y n => exact .inr ((and_F000_eq_iff rfl).mpr (by rw [← hop]; simp [encode]))
    | _ => cases hw
  · have hdrw : Encodes 0xF000#16 0xD000#16 fun op => .drw (fieldX op) (fieldY op) (fieldN op) :=
      encodes_of_mem (mnemonic := "DRW") (by simp [opcodeTable])
    rintro (rfl | hd)
    · cases h
      rfl
    · rw [hdrw op] at hd
      rw [h] at hd
      cases hd
      rfl

/-- Both instructions that draw set DRAWFLAG unless they raise, and the others leave it clear. -/
theorem drawFlag_of_exec {i : Instr} {s t : State} (h : exec i s = .next t) (hf : s.fault = none)
    (hd : s.drawFlag = false) :
    (t.fault = none → (t.drawFlag = true ↔ i.writesFrame = true)) ∧
    (t.fault ≠ none → t.drawFlag = false) := by
  cases hw : i.writesFrame with
  | false =>
    have hd' : t.drawFlag = false := ((execFrame h).screen hw).2.trans hd
    simp [hd']
  | true =>
    cases i with
    | cls =>
      cases h
      simp [hf]
    | drw x y n =>
      rcases execDrw_cases x y n s with ⟨-, coll, fb, he, -⟩ | ⟨-, -, fb, he, -⟩
      · cases he.symm.trans h
        simp [hf]
      · cases he.symm.trans h
        simp [hf, hd]
    | _ => cases hw

/-- Settles O11: the cycle clears DRAWFLAG, and the instructions that set it again are the words named. -/
theorem drawFlagTellsWhetherTheCycleDrew : Obligations.DrawFlagTellsWhetherTheCycleDrew := by
  intro s t rest op hfetch hturn hstep
  have hf : (fetched op { s with agenda := rest }).fault = none := hfetch.1
  rw [step_of_fetches hturn hfetch] at hstep
  by_cases hok : ∃ i, decode op = .ok i
  · obtain ⟨i, hi⟩ := hok
    rw [decodeExecute_of_ok hi] at hstep
    rw [← writesFrame_iff_of_decode hi]
    exact drawFlag_of_exec hstep hf rfl
  · rw [decodeExecute_of_invalid (not_exists.mp hok), raise_of_none hf] at hstep
    cases hstep
    exact ⟨nofun, fun _ => rfl⟩

/-! ### The kinds of fault -/

theorem faultCode_of_accessFault {base count : Nat} {f : Fault} (h : accessFault base count = some f) :
    faultCode f = 1 := by
  unfold accessFault at h
  split at h
  · cases h
  · cases h
    rfl

/-- The table of 60_exceptions.md R162 names two kinds only. -/
theorem faultCode_of_faultOf {i : Instr} {s : State} {f : Fault} (h : faultOf i s = some f) :
    faultCode f = 1 ∨ faultCode f = 3 := by
  cases i with
  | ret | call =>
    simp only [faultOf] at h
    split at h
    · cases h
      exact .inr rfl
    · cases h
  | drw | ldB | stRegs | ldRegs => exact .inl (faultCode_of_accessFault h)
  | _ => cases h

/-- Settles O13: a cycle raises at the fetch, at the dispatch or in the instruction. -/
theorem cycleRaisesOnlyThreeKinds : Obligations.CycleRaisesOnlyThreeKinds := by
  intro s t rest f hf hturn hstep htf
  rw [step_of_cpuTurn hturn] at hstep
  rcases cycle_cases { s with agenda := rest } with
    ⟨g, -, he⟩ | ⟨-, -, he⟩ | ⟨-, -, op, -, ⟨i, -, he⟩ | ⟨-, -, he⟩⟩
  case inl => cases he.symm.trans hstep
  case inr.inl =>
    cases he.symm.trans hstep
    cases htf
    exact .inl rfl
  case inr.inr.inl =>
    have hfault : t.fault = faultOf i (fetched op { s with agenda := rest }) := by
      rw [exec_fault (he.symm.trans hstep), fetched_fault, hf, Option.none_or]
    exact (faultCode_of_faultOf (hfault.symm.trans htf)).imp_right .inl
  case inr.inr.inr =>
    cases he.symm.trans hstep
    cases htf
    exact .inr (.inr rfl)

end Sys2Proof.Proofs
end

section
/-!
PROOFS. The invariant of every run (10_state.md R34).
-/

namespace Sys2Proof.Proofs

open Sys2Proof.Machine

theorem addrOf_toNat (nnn : Addr12) : (addrOf nnn).toNat = nnn.toNat :=
  BitVec.toNat_setWidth_of_le (by decide)

/-- BNNN's sum fits in 16 bits (41_flow.md R103). -/
theorem addrOf_add_wordOf_toNat (nnn : Addr12) (b : Byte) :
    (addrOf nnn + wordOf b).toNat = nnn.toNat + b.toNat := by
  have := nnn.isLt
  have := b.isLt
  rw [BitVec.toNat_add, addrOf_toNat, wordOf_toNat]
  omega

section
variable {i : Instr} {s t : State} (h : exec i s = .next t)
include h

/-- From a PC that a fetch has just left, PC stays within the bound of 10_state.md R34: the largest target
is BNNN's 0xFFF + 0xFF. -/
theorem pc_le_of_exec (hlo : 2 ≤ s.pc.toNat) (hhi : s.pc.toNat ≤ 0x1000)
    (hstack : ∀ k : Fin 16, s.stack[k].toNat ≤ 0x1000) : t.pc.toNat ≤ 0x10FE := by
  cases hw : i.writesPc with
  | false =>
    rw [(execFrame h).pc hw]
    omega
  | true =>
    cases i with
    | jp nnn =>
      cases h
      have := nnn.isLt
      rw [addrOf_toNat]
      omega
    | jpV0 nnn =>
      cases h
      have := nnn.isLt
      have := (getV 0 s).isLt
      rw [addrOf_add_wordOf_toNat]
      omega
    | seImm | sneImm | seReg | sneReg | skp | sknp =>
      cases h
      rw [skipIf_pc]
      split
      · bv_omega
      · omega
    | ldVxK x =>
      simp only [exec, execLdVxK] at h
      split at h
      · cases h
        exact hhi.trans (by decide)
      · cases h
        bv_omega
    | call nnn =>
      rcases execCall_cases nnn s with ⟨k, -, he⟩ | ⟨-, he⟩
      · cases he.symm.trans h
        have := nnn.isLt
        rw [addrOf_toNat]
        omega
      · cases he.symm.trans h
        exact hhi.trans (by decide)
    | ret =>
      rcases execRet_cases s with ⟨k, -, he⟩ | ⟨-, he⟩
      · cases he.symm.trans h
        exact (hstack k).trans (by decide)
      · cases he.symm.trans h
        exact hhi.trans (by decide)
    | _ => cases hw

/-- The one word an instruction puts on the stack is the PC that the fetch left. -/
theorem stack_le_of_exec (hhi : s.pc.toNat ≤ 0x1000)
    (hstack : ∀ k : Fin 16, s.stack[k].toNat ≤ 0x1000) :
    ∀ k : Fin 16, t.stack[k].toNat ≤ 0x1000 := by
  cases hw : i.usesStack with
  | false =>
    rw [((execFrame h).stack hw).2]
    exact hstack
  | true =>
    cases i with
    | call nnn =>
      rcases execCall_cases nnn s with ⟨j, -, he⟩ | ⟨-, he⟩
      · cases he.symm.trans h
        intro k
        by_cases hk : j.val = k.val
        · simpa [hk] using hhi
        · simpa [hk] using hstack k
      · cases he.symm.trans h
        exact hstack
    | ret =>
      rcases execRet_cases s with ⟨j, -, he⟩ | ⟨-, he⟩ <;>
      · cases he.symm.trans h
        exact hstack
    | _ => cases hw

theorem inv_of_exec (hinv : Inv s) (hlo : 2 ≤ s.pc.toNat) (hhi : s.pc.toNat ≤ 0x1000) : Inv t where
  mem_wf := (execFrame h).memWf hinv.mem_wf
  pc_le := pc_le_of_exec h hlo hhi hinv.stack_le
  stack_le := stack_le_of_exec h hhi hinv.stack_le
  lastKey_down := by
    obtain ⟨hkey, hany, hlast⟩ := (execFrame h).keypad
    simpa only [hkey, hany, hlast] using hinv.lastKey_down

end

theorem inv_of_cycle {s t : State} (h : cycle s = .next t) (hinv : Inv s) : Inv t := by
  obtain ⟨hwf, hpc, hstack, hlast⟩ := hinv
  rcases cycle_cases s with ⟨f, -, he⟩ | ⟨-, -, he⟩ | ⟨-, hp, op, -, ⟨i, -, he⟩ | ⟨-, -, he⟩⟩
  case inl => cases he.symm.trans h
  case inr.inl =>
    cases he.symm.trans h
    exact ⟨hwf, hpc, hstack, hlast⟩
  case inr.inr.inl =>
    have hpc' : (fetched op s).pc.toNat = s.pc.toNat + 2 := by
      rw [fetched_pc]
      bv_omega
    exact inv_of_exec (he.symm.trans h) ⟨hwf, by omega, hstack, hlast⟩ (by omega) (by omega)
  case inr.inr.inr =>
    cases he.symm.trans h
    refine ⟨hwf, ?_, hstack, hlast⟩
    show (s.pc + 2#16).toNat ≤ 0x10FE
    bv_omega

/-! ### Events -/

theorem inv_of_deliver {e : Event} {s t : State} (h : deliver e s = .next t) (hinv : Inv s) :
    Inv t := by
  obtain ⟨hwf, hpc, hstack, hlast⟩ := hinv
  cases hf : hostFault e.call with
  | some f =>
    cases (deliver_of_hostFault hf s).symm.trans h
    exact ⟨hwf, hpc, hstack, hlast⟩
  | none =>
    cases e with
    | tick T =>
      cases T <;>
      · cases h
        exact ⟨hwf, hpc, hstack, hlast⟩
    | keyPress k =>
      have hk : k < 16 := by simpa [hostFault, Event.call] using hf
      cases (deliver_keyPress hk s).symm.trans h
      exact ⟨hwf, hpc, hstack, by simp⟩
    | keyRelease k =>
      have hk : k < 16 := by simpa [hostFault, Event.call] using hf
      cases (deliver_keyRelease hk s).symm.trans h
      exact ⟨hwf, hpc, hstack, nofun⟩
    | query q =>
      cases (deliver_query hf s).symm.trans h
      exact ⟨hwf, hpc, hstack, hlast⟩

/-- Settles O15: a cycle keeps the invariant, which the fetch's bound on PC makes possible, and so does
each event. -/
theorem everyStepKeepsTheInvariant : Obligations.EveryStepKeepsTheInvariant := by
  intro s t hinv hstep
  have hl : ∀ l, Inv { s with agenda := l } := fun _ =>
    ⟨hinv.mem_wf, hinv.pc_le, hinv.stack_le, hinv.lastKey_down⟩
  rcases step_cases s with ⟨l, he⟩ | ⟨e, l, he⟩
  · exact inv_of_cycle (he.symm.trans hstep) (hl l)
  · exact inv_of_deliver (he.symm.trans hstep) (hl l)

/-- Settles O14: nothing has been written, called or pressed at reset. -/
theorem resetSatisfiesTheInvariant : Obligations.ResetSatisfiesTheInvariant where
  mem_wf := Memory.wf_nil
  pc_le := by decide
  stack_le := by decide
  lastKey_down := nofun

end Sys2Proof.Proofs
end

section
/-!
PROOFS. Control transfer (41_flow.md R100 to R103) and the quiescent self-jump (70_reset_and_hazards.md R206).
-/

namespace Sys2Proof.Proofs

open Sys2Proof.Machine

/-! ### Return and call -/

theorem exec_ret_of_succ {s : State} {k : Fin 16} (h : s.sp = k.succ) :
    exec .ret s = .next { s with pc := s.stack[k], sp := k.castSucc } := by
  rcases execRet_cases s with ⟨j, hj, he⟩ | ⟨h0, -⟩
  · obtain rfl : k = j := Fin.succ_injective _ (h.symm.trans hj)
    exact he
  · simp [h] at h0

theorem exec_ret_of_zero {s : State} (h : s.sp = 0) (hf : s.fault = none) :
    exec .ret s = .next { s with fault := some (.stackPointerInvalid 0) } := by
  rcases execRet_cases s with ⟨j, hj, -⟩ | ⟨-, he⟩
  · exact absurd (h.symm.trans hj).symm (Fin.succ_ne_zero j)
  · exact he.trans (raise_of_none hf _)

theorem exec_call_of_castSucc {s : State} {k : Fin 16} (h : s.sp = k.castSucc) (nnn : Addr12) :
    exec (.call nnn) s =
      .next { s with sp := k.succ, stack := s.stack.set k s.pc, pc := nnn.setWidth 16 } := by
  rcases execCall_cases nnn s with ⟨j, hj, he⟩ | ⟨h16, -⟩
  · obtain rfl : k = j := Fin.castSucc_injective _ (h.symm.trans hj)
    exact he
  · have := k.isLt
    simp [h] at h16
    omega

theorem exec_call_of_full {s : State} (h : s.sp.val = 16) (hf : s.fault = none) (nnn : Addr12) :
    exec (.call nnn) s = .next { s with fault := some (.stackPointerInvalid 16) } := by
  rcases execCall_cases nnn s with ⟨j, hj, -⟩ | ⟨-, he⟩
  · have := j.isLt
    simp [hj] at h
    omega
  · exact he.trans (raise_of_none hf _)

/-- Settles O27: 00EE is one row of the table, and its two ways are those of the pop. -/
theorem returnPopsTheReturnAddress : Obligations.ReturnPopsTheReturnAddress :=
  ⟨encodes_of_mem (mnemonic := "RET") (by simp [opcodeTable]),
    fun _ _ => exec_ret_of_succ, fun _ => exec_ret_of_zero⟩

/-- Settles O28: 2NNN is one row of the table, and its two ways are those of the push. -/
theorem callPushesTheReturnAddress : Obligations.CallPushesTheReturnAddress :=
  ⟨encodes_of_mem (mnemonic := "CALL") (by simp [opcodeTable]),
    fun nnn _ _ h => exec_call_of_castSucc h nnn, fun nnn _ h hf => exec_call_of_full h hf nnn⟩

/-- A call writes the slot of its own depth only. -/
theorem call_keeps_lower_slot {m : Addr12} {u w : State} {k : Fin 16} (hk : u.sp.val > k.val)
    (h : exec (.call m) u = .next w) : w.stack[k] = u.stack[k] := by
  rcases execCall_cases m u with ⟨j, hj, he⟩ | ⟨-, he⟩
  · cases he.symm.trans h
    have hne : j.val ≠ k.val := by
      rw [hj, Fin.val_castSucc] at hk
      omega
    simp [hne]
  · cases he.symm.trans h
    rfl

/-- Settles O29: the return reads the slot the call wrote, which deeper calls leave alone. -/
theorem callThenReturnRestoresPcAndSp : Obligations.CallThenReturnRestoresPcAndSp := by
  intro nnn s k hk
  refine ⟨⟨_, exec_call_of_castSucc hk nnn, fun u hsp hslot => ?_⟩,
    fun m u w hdeep h => call_keeps_lower_slot hdeep h⟩
  have hpc : u.stack[k] = s.pc := hslot.trans (by simp)
  rw [exec_ret_of_succ hsp, hpc, hk]

/-! ### Jumps -/

theorem exec_jp (nnn : Addr12) (s : State) :
    exec (.jp nnn) s = .next { s with pc := nnn.setWidth 16 } := rfl

/-- A word is what its number widens back to. -/
theorem addrOf_eq_of_toNat_eq {pc : Word} {nnn : Addr12} (h : pc.toNat = nnn.toNat) :
    addrOf nnn = pc := BitVec.eq_of_toNat_eq ((addrOf_toNat nnn).trans h.symm)

/-- A cycle that jumps to its own address. -/
theorem step_of_self_jump {s : State} {rest : List Turn} {nnn : Addr12}
    (hfetch : Fetches s (encode (.jp nnn))) (hturn : CpuTurn s rest) (hpc : s.pc.toNat = nnn.toNat) :
    step s = .next { s with agenda := rest, opcode := encode (.jp nnn), drawFlag := false } := by
  rw [step_of_fetches hturn hfetch, decodeExecute_of_ok (decode_encode _)]
  show Host.Outcome.next { s with
    agenda := rest, opcode := encode (.jp nnn), drawFlag := false, pc := addrOf nnn } = _
  rw [addrOf_eq_of_toNat_eq hpc]

/-- Settles O30: the target is not looked at before the next fetch, which raises above 4094 and in a
self-jump finds the jump again. -/
theorem jumpSetsPc : Obligations.JumpSetsPc := by
  refine ⟨encodes_of_mem (mnemonic := "JP") (by simp [opcodeTable]), exec_jp, ?_, ?_⟩
  · intro s rest hf hturn
    exact ⟨_, exec_jp _ s, step_of_pc_gt hturn hf (Nat.lt_succ_self 4094)⟩
  · intro nnn s rest rest' hfetch hturn hpc
    refine ⟨_, step_of_self_jump hfetch hturn hpc, rfl, fun hturn' => ?_⟩
    exact step_of_self_jump hfetch hturn' hpc

/-- Settles O31: BNNN is one row of the table, and NNN + V0 does not wrap. -/
theorem indexedJumpAddsV0 : Obligations.IndexedJumpAddsV0 :=
  ⟨encodes_of_mem (mnemonic := "JP.V0") (by simp [opcodeTable]),
    fun nnn s => ⟨_, rfl, rfl, addrOf_add_wordOf_toNat nnn s.v[0]⟩⟩

/-! ### The quiescent self-jump -/

/-- Being quiescent is a matter of FAULT, PC and memory. -/
theorem quiescent_congr {s t : State} (h : Quiescent s) (hf : t.fault = s.fault) (hp : t.pc = s.pc)
    (hm : t.mem = s.mem) : Quiescent t := by
  obtain ⟨nnn, hfetch, hpc⟩ := h
  exact ⟨nnn, by rwa [Fetches, hf, hp, hm], by rwa [hp]⟩

/-- An event that does not fault leaves FAULT, PC and memory. -/
theorem deliver_in_range {e : Event} (h : hostFault e.call = none) (s : State) :
    ∃ t, deliver e s = .next t ∧ t.fault = s.fault ∧ t.pc = s.pc ∧ t.mem = s.mem := by
  cases e with
  | tick T => cases T <;> exact ⟨_, rfl, rfl, rfl, rfl⟩
  | keyPress k =>
    have hk : k < 16 := by simpa [hostFault, Event.call] using h
    exact ⟨_, deliver_keyPress hk s, rfl, rfl, rfl⟩
  | keyRelease k =>
    have hk : k < 16 := by simpa [hostFault, Event.call] using h
    exact ⟨_, deliver_keyRelease hk s, rfl, rfl, rfl⟩
  | query q => exact ⟨s, deliver_query h s, rfl, rfl, rfl⟩

/-- Settles O58: neither the jump to itself nor an event in range touches FAULT, PC or memory. -/
theorem selfJumpIsQuiescent : Obligations.SelfJumpIsQuiescent := by
  intro s hq
  refine ⟨fun rest hturn => ?_, fun e he => ?_⟩
  · have ⟨nnn, hfetch, hpc⟩ := hq
    exact ⟨_, step_of_self_jump hfetch hturn hpc, quiescent_congr hq rfl rfl rfl, rfl⟩
  · obtain ⟨t, ht, hf, hp, hm⟩ := deliver_in_range he s
    exact ⟨t, ht, quiescent_congr hq hf hp hm⟩

end Sys2Proof.Proofs
end

section
/-!
PROOFS. The keypad instructions (45_keypad_timer.md R150 to R152).
-/

namespace Sys2Proof.Proofs

open Sys2Proof.Machine

theorem keyDown_of_lt {k : Nat} (h : k < 16) (s : State) : keyDown k s = s.key[k] := by
  rw [keyDown, keyIsPressed_of_lt h]

theorem keyDown_of_ge {k : Nat} (h : k ≥ 16) (s : State) : keyDown k s = false := by
  rw [keyDown, keyIsPressed_of_ge h]

theorem exec_skp (x : Reg) (s : State) : exec (.skp x) s =
    .next { s with pc := if keyDown (s.v[x]).toNat s then s.pc + 2#16 else s.pc } :=
  congrArg _ (skipIf_eq_of_iff Iff.rfl s)

theorem exec_sknp (x : Reg) (s : State) : exec (.sknp x) s =
    .next { s with pc := if keyDown (s.v[x]).toNat s then s.pc else s.pc + 2#16 } := by
  show Host.Outcome.next (skipIf (!keyDown (s.v[x]).toNat s) s) = _
  cases keyDown (s.v[x]).toNat s <;> rfl

/-- Settles O49: the words are the two rows of the table, and a number that is no key counts as a key that
is up. -/
theorem keySkips : Obligations.KeySkips := by
  refine ⟨encodes_of_mem (mnemonic := "SKP") (by simp [opcodeTable]),
    encodes_of_mem (mnemonic := "SKNP") (by simp [opcodeTable]), fun x s => ⟨fun k hk => ?_, fun h => ?_⟩⟩
  · rw [exec_skp, exec_sknp, hk, keyDown_of_lt k.isLt]
    exact ⟨rfl, rfl⟩
  · rw [exec_skp, exec_sknp, keyDown_of_ge h]
    exact ⟨rfl, rfl⟩

theorem exec_ldVxK_of_key {s : State} (h : s.anyKey = true) (x : Reg) :
    exec (.ldVxK x) s = .next { s with v := s.v.set x (BitVec.ofNat 8 s.lastKey.val) } := if_pos h

theorem exec_ldVxK_of_no_key {s : State} (h : s.anyKey = false) (x : Reg) :
    exec (.ldVxK x) s = .next { s with pc := s.pc - 2#16 } := if_neg (by simp [h])

/-- The PC taken back is the one before the fetch, so the cycle comes round to where it began. -/
theorem step_of_waiting {s : State} {rest : List Turn} {x : Reg}
    (hfetch : Fetches s (encode (.ldVxK x))) (hturn : CpuTurn s rest) (h : s.anyKey = false) :
    step s = .next { s with agenda := rest, opcode := encode (.ldVxK x), drawFlag := false } := by
  rw [step_of_fetches hturn hfetch, decodeExecute_of_ok (decode_encode _),
    exec_ldVxK_of_no_key (s := fetched _ { s with agenda := rest }) h]
  show Host.Outcome.next { s with
    agenda := rest, opcode := encode (.ldVxK x), drawFlag := false, pc := s.pc + 2#16 - 2#16 } = _
  rw [BitVec.add_sub_cancel]

/-- Settles O50: FX0A is one row of the table, ANYKEY decides between its two ways, and the waiting cycle
writes OPCODE and DRAWFLAG only. -/
theorem keyWaitSpinsUntilAnyKey : Obligations.KeyWaitSpinsUntilAnyKey := by
  refine ⟨encodes_of_mem (mnemonic := "LD.Vx.K") (by simp [opcodeTable]),
    fun x s => ⟨fun h => exec_ldVxK_of_key h x, fun h => exec_ldVxK_of_no_key h x⟩,
    fun x s rest hfetch hturn h => ⟨step_of_waiting hfetch hturn h, fun hop hd => ?_⟩⟩
  rw [step_of_waiting hfetch hturn h, ← hop, ← hd]

end Sys2Proof.Proofs
end

section
/-!
PROOFS. Subtractions, shifts and the random byte (42_alu.md R117 to R121), and the flag register as an operand
of the instructions that write it (42_alu.md R124).
-/

namespace Sys2Proof.Proofs

open Sys2Proof.Machine

/-! ### Byte operations as arithmetic -/

theorem byte_sub_eq_ofNat (a b : Byte) :
    a - b = BitVec.ofNat 8 ((a.toNat + 256 - b.toNat) % 256) := by
  have := b.isLt
  apply BitVec.eq_of_toNat_eq
  rw [BitVec.toNat_sub, BitVec.toNat_ofNat]
  omega

theorem byte_shr_eq_ofNat (b : Byte) : b >>> 1 = BitVec.ofNat 8 (b.toNat / 2) := by
  have := b.isLt
  apply BitVec.eq_of_toNat_eq
  rw [BitVec.toNat_ushiftRight, BitVec.toNat_ofNat, Nat.shiftRight_eq_div_pow]
  omega

theorem byte_shl_eq_ofNat (b : Byte) : b <<< 1 = BitVec.ofNat 8 (b.toNat * 2 % 256) := by
  apply BitVec.eq_of_toNat_eq
  rw [BitVec.toNat_shiftLeft, BitVec.toNat_ofNat, Nat.shiftLeft_eq]
  omega

/-- The flag byte of the bit shifted out at the bottom is that bit as a number. -/
theorem flagByte_shiftedOutLow (b : Byte) :
    flagByte (shiftedOutLow b) = BitVec.ofNat 8 (b.toNat % 2) := by
  have h : shiftedOutLow b = decide (b.toNat % 2 = 1) := by
    simp [shiftedOutLow, BitVec.getLsbD, Nat.testBit_zero]
  rcases Nat.mod_two_eq_zero_or_one b.toNat with h2 | h2 <;> rw [h, h2] <;> rfl

/-- The flag byte of the bit shifted out at the top is that bit as a number. -/
theorem flagByte_shiftedOutHigh (b : Byte) :
    flagByte (shiftedOutHigh b) = BitVec.ofNat 8 (b.toNat / 128) := by
  have hlt := b.isLt
  have h : shiftedOutHigh b = decide (b.toNat / 128 = 1) := by
    simp [shiftedOutHigh, BitVec.getLsbD, Nat.testBit_eq_decide_div_mod_eq]
    omega
  have h01 : b.toNat / 128 = 0 ∨ b.toNat / 128 = 1 := by omega
  rcases h01 with h1 | h1 <;> rw [h, h1] <;> rfl

/-! ### One equation per instruction: the flag write, then the result from what it left -/

theorem exec_sub (x y : Reg) (s : State) :
    let v := s.v.set 15 (if (s.v[y]).toNat ≤ (s.v[x]).toNat then 1#8 else 0#8)
    exec (.sub x y) s =
      .next { s with v := v.set x (BitVec.ofNat 8 (((v[x]).toNat + 256 - (v[y]).toNat) % 256)) } := by
  intro v
  have hflag : setFlag (noBorrow (getV x s) (getV y s)) s = { s with v := v } := setFlag_decide _ s
  rw [← byte_sub_eq_ofNat]
  show Host.Outcome.next (subInto x y (setFlag (noBorrow (getV x s) (getV y s)) s)) = _
  rw [hflag]
  rfl

theorem exec_subn (x y : Reg) (s : State) :
    let v := s.v.set 15 (if (s.v[x]).toNat ≤ (s.v[y]).toNat then 1#8 else 0#8)
    exec (.subn x y) s =
      .next { s with v := v.set x (BitVec.ofNat 8 (((v[y]).toNat + 256 - (v[x]).toNat) % 256)) } := by
  intro v
  have hflag : setFlag (noBorrow (getV y s) (getV x s)) s = { s with v := v } := setFlag_decide _ s
  rw [← byte_sub_eq_ofNat]
  show Host.Outcome.next (subnInto x y (setFlag (noBorrow (getV y s) (getV x s)) s)) = _
  rw [hflag]
  rfl

theorem exec_shr (x y : Reg) (s : State) :
    let v := s.v.set 15 (BitVec.ofNat 8 ((s.v[y]).toNat % 2))
    exec (.shr x y) s = .next { s with v := v.set x (BitVec.ofNat 8 ((v[y]).toNat / 2)) } := by
  intro v
  rw [← byte_shr_eq_ofNat]
  simp only [v, ← flagByte_shiftedOutLow]
  rfl

theorem exec_shl (x y : Reg) (s : State) :
    let v := s.v.set 15 (BitVec.ofNat 8 ((s.v[y]).toNat / 128))
    exec (.shl x y) s = .next { s with v := v.set x (BitVec.ofNat 8 ((v[y]).toNat * 2 % 256)) } := by
  intro v
  rw [← byte_shl_eq_ofNat]
  simp only [v, ← flagByte_shiftedOutHigh]
  rfl

/-- Settles O37: the words are the two rows of the table, and the difference reads the registers again after
the flag write. -/
theorem subtractionsReportNoBorrow : Obligations.SubtractionsReportNoBorrow :=
  ⟨encodes_of_mem (mnemonic := "SUB") (by simp [opcodeTable]),
    encodes_of_mem (mnemonic := "SUBN") (by simp [opcodeTable]),
    fun x y s => ⟨exec_sub x y s, exec_subn x y s⟩⟩

/-- Settles O38: the words are the two rows of the table, and the shift reads V[Y] again after the flag
write. -/
theorem shiftsTakeVyAndReportTheBit : Obligations.ShiftsTakeVyAndReportTheBit :=
  ⟨encodes_of_mem (mnemonic := "SHR") (by simp [opcodeTable]),
    encodes_of_mem (mnemonic := "SHL") (by simp [opcodeTable]),
    fun x y s => ⟨exec_shr x y s, exec_shl x y s⟩⟩

/-! ### VF as an operand -/

theorem toNat_flag (p : Prop) [Decidable p] :
    (if p then 1#8 else 0#8).toNat = if p then 1 else 0 := by
  split <;> rfl

theorem ofNat_flag (p : Prop) [Decidable p] :
    BitVec.ofNat 8 (if p then 1 else 0) = if p then 1#8 else 0#8 := by
  split <;> rfl

theorem byte_ofNat_mod (n : Nat) : BitVec.ofNat 8 (n % 256) = BitVec.ofNat 8 n :=
  BitVec.eq_of_toNat_eq (by rw [BitVec.toNat_ofNat, BitVec.toNat_ofNat]; omega)

/-- A flag shifted right is gone. -/
theorem flag_div_two (n : Nat) : n % 2 % 256 / 2 = 0 := by omega

/-- Settles O39: with X = 15 the result overwrites the flag write; with Y = 15, or both, the flag is read
back as an operand. -/
theorem flagRegisterAsOperand : Obligations.FlagRegisterAsOperand := by
  intro s z hz vf vz ge b8
  have hz' : 15 ≠ z.val := fun e => hz (Fin.ext e).symm
  refine ⟨⟨?_, ?_, ?_⟩, ⟨?_, ?_, ?_⟩, ⟨?_, ?_, ?_⟩, ⟨?_, ?_, ?_⟩, ?_, ?_, ?_⟩
  · simp [exec_addReg, vf, vz, b8]
  · simp [exec_addReg, vf, vz, ge, b8, byte_ofNat_mod, ofNat_flag, Nat.lt_iff_add_one_le]
  · simp [exec_addReg, vf, b8, two_mul]
  · simp [exec_sub, vf, vz, ge, b8, hz', toNat_flag]
  · simp [exec_sub, vf, vz, ge, b8, hz', toNat_flag, byte_ofNat_mod, ofNat_flag]
  · simp [exec_sub]
  · simp [exec_shr, vz, b8, hz', byte_ofNat_mod]
  · simp [exec_shr, vf, b8, byte_ofNat_mod, flag_div_two]
  · simp [exec_shr, flag_div_two]
  · simp [exec_subn, vf, vz, ge, b8, hz', toNat_flag]
  · simp [exec_subn, vf, vz, ge, b8, hz', toNat_flag, byte_ofNat_mod, ofNat_flag]
  · simp [exec_subn]
  · simp [exec_shl, vz, b8, hz']
  · simp [exec_shl, vf, b8, byte_ofNat_mod]
  · simp [exec_shl, vf, b8]

/-! ### The random byte -/

theorem exec_rnd (x : Reg) (nn : Byte) (s : State) : exec (.rnd x nn) s =
    .next { s with v := s.v.set x (randomByte s &&& nn), draws := s.draws + 1 } := rfl

/-- Settles O40: CXNN is one row of the table, and the byte drawn does not depend on NN. -/
theorem randomByteIsMasked : Obligations.RandomByteIsMasked := by
  refine ⟨encodes_of_mem (mnemonic := "RND") (by simp [opcodeTable]), fun x s => ?_⟩
  refine ⟨randomByte s, fun nn => ⟨_, exec_rnd x nn s, fun _ => BitVec.getLsbD_and, ?_, ?_⟩⟩
  · rintro rfl
    exact BitVec.and_zero
  · rintro rfl
    exact BitVec.and_allOnes

end Sys2Proof.Proofs
end

section
/-!
PROOFS. The memory instructions FX33, FX55 and FX65 (43_index_memory.md R133 to R135), and the fetch after a
store (20_memory.md section 9).
-/

namespace Sys2Proof.Proofs

open Sys2Proof.Machine

/-! ### Bytes stored up to the end of memory -/

/-- The bytes `ws` at ascending addresses from `a`, those whose address is at most 4095. -/
def storeList (m : Memory) (a : Nat) (ws : List Byte) : Memory := m.writeList a (ws.take (4096 - a))

theorem storeList_of_le {a : Nat} {ws : List Byte} (h : a + ws.length ≤ 4096) (m : Memory) :
    storeList m a ws = m.writeList a ws := by
  rw [storeList, List.take_of_length_le (by omega)]

theorem read_storeList_of_mem {a k : Nat} {ws : List Byte} (hk : k < ws.length) (h : a + k ≤ 4095)
    (m : Memory) : (storeList m a ws).read (a + k) = ws[k] := by
  rw [storeList, Memory.read_writeList, dif_pos ⟨by omega, by rw [List.length_take]; omega⟩]
  simp

theorem read_storeList_of_not_mem {a b : Nat} {ws : List Byte}
    (h : ¬ (a ≤ b ∧ b < a + ws.length ∧ b ≤ 4095)) (m : Memory) :
    (storeList m a ws).read b = m.read b := by
  rw [storeList, Memory.read_writeList, dif_neg (by rw [List.length_take]; omega)]

theorem recordFault_of_none {s : State} (h : s.fault = none) (f : Fault) :
    recordFault f s = { s with fault := some f } := Host.Outcome.next.inj (raise_of_none h f)

/-! ### FX33 -/

/-- FX33's two ways in one: the digits in memory are stored, and the first bad address is recorded. -/
theorem exec_ldB_stores (x : Reg) (s : State) : ∃ t, exec (.ldB x) s = .next t ∧
    t.mem = storeList s.mem s.i.toNat (decimalDigits s.v[x]) ∧
    (s.i.toNat + 2 ≤ 4095 → t = { s with mem := t.mem }) ∧
    (s.i.toNat + 2 > 4095 → s.fault = none →
      t = { s with mem := t.mem, fault := some (.addressOutOfRange (max s.i.toNat 4096)) }) := by
  rcases execLdB_cases x s with ⟨h, he⟩ | ⟨h, he⟩
  · refine ⟨_, he, ?_, fun _ => rfl, fun h' => by omega⟩
    rw [storeList_of_le (by simp [decimalDigits]; omega)]
  · exact ⟨_, he, rfl, fun h' => by omega, fun _ hf => by rw [recordFault_of_none]; exact hf⟩

theorem decimalDigits_getElem_toNat (b : Byte) {k : Nat} (hk : k < 3) :
    ((decimalDigits b)[k]'hk).toNat =
      if k = 0 then b.toNat / 100 else if k = 1 then b.toNat / 10 % 10 else b.toNat % 10 := by
  have := b.isLt
  match k, hk with
  | 0, _ | 1, _ | 2, _ => simp [decimalDigits]; omega

/-- Settles O42: FX33 is one row of the table, and the digits in memory are the ones stored. -/
theorem decimalStoreWritesThreeDigits : Obligations.DecimalStoreWritesThreeDigits := by
  refine ⟨encodes_of_mem (mnemonic := "LD.B") (by simp [opcodeTable]), fun x s => ?_⟩
  intro n digit
  obtain ⟨t, ht, hmem, hle, hgt⟩ := exec_ldB_stores x s
  refine ⟨t, ht, fun k hk h => ?_, fun a ha => ?_, hle, hgt⟩
  · rw [hmem, read_storeList_of_mem hk h, decimalDigits_getElem_toNat]
  · rw [hmem, read_storeList_of_not_mem ha]

/-! ### FX55 and FX65 -/

theorem advanceI_eq (x : Reg) (s : State) :
    advanceI x s = { s with i := BitVec.ofNat 16 (s.i.toNat + x.val + 1) } := by
  have h : s.i + BitVec.ofNat 16 (x.val + 1) = BitVec.ofNat 16 (s.i.toNat + x.val + 1) := by
    rw [Nat.add_assoc, BitVec.ofNat_add s.i.toNat, BitVec.ofNat_toNat, BitVec.setWidth_eq]
  rw [advanceI, h]

theorem exec_stRegs_stores (x : Reg) (s : State) : ∃ t, exec (.stRegs x) s = .next t ∧
    t.mem = storeList s.mem s.i.toNat ((regsUpTo x).map fun k => s.v[k]) ∧
    (s.i.toNat + x.val ≤ 4095 →
      t = { s with mem := t.mem, i := BitVec.ofNat 16 (s.i.toNat + x.val + 1) }) ∧
    (s.i.toNat + x.val > 4095 → s.fault = none →
      t = { s with mem := t.mem, fault := some (.addressOutOfRange (max s.i.toNat 4096)) }) := by
  rcases execStRegs_cases x s with ⟨h, he⟩ | ⟨h, he⟩
  · refine ⟨_, he, ?_, fun _ => advanceI_eq x _, fun h' => by omega⟩
    rw [storeList_of_le (by simp [regsUpTo_length]; omega), advanceI_mem]
  · exact ⟨_, he, rfl, fun h' => by omega,
      fun _ hf => by rw [recordFault_of_none]; exact hf⟩

theorem length_map_regsUpTo (x : Reg) (f : Reg → Byte) : ((regsUpTo x).map f).length = x.val + 1 := by
  rw [List.length_map, regsUpTo_length]

/-- The registers V0 to VX lie in the list at their own index. -/
theorem getElem_map_regsUpTo {x : Reg} {f : Reg → Byte} {k : Nat} (hk : k < 16)
    (h : k < ((regsUpTo x).map f).length) : ((regsUpTo x).map f)[k] = f ⟨k, hk⟩ := by
  simp [regsUpTo]

/-- Settles O43: FX55 is one row of the table, and the k-th byte stored is V[k]. -/
theorem registerStoreWritesV0ToVx : Obligations.RegisterStoreWritesV0ToVx := by
  refine ⟨encodes_of_mem (mnemonic := "ST.regs") (by simp [opcodeTable]), fun x s => ?_⟩
  obtain ⟨t, ht, hmem, hle, hgt⟩ := exec_stRegs_stores x s
  refine ⟨t, ht, fun k hk h => ?_, fun a ha => ?_, hle, hgt⟩
  · rw [hmem, read_storeList_of_mem (by rw [length_map_regsUpTo]; exact Nat.lt_succ_of_le hk) h]
    exact getElem_map_regsUpTo k.isLt _
  · rw [hmem, read_storeList_of_not_mem (by rwa [length_map_regsUpTo])]

theorem exec_ldRegs_loads (x : Reg) (s : State) : ∃ t, exec (.ldRegs x) s = .next t ∧
    (∀ k : Reg, t.v[k] =
      if k ≤ x ∧ s.i.toNat + k.val ≤ 4095 then s.mem.read (s.i.toNat + k.val) else s.v[k]) ∧
    (s.i.toNat + x.val ≤ 4095 →
      t = { s with v := t.v, i := BitVec.ofNat 16 (s.i.toNat + x.val + 1) }) ∧
    (s.i.toNat + x.val > 4095 → s.fault = none →
      t = { s with v := t.v, fault := some (.addressOutOfRange (max s.i.toNat 4096)) }) := by
  rcases execLdRegs_cases x s with ⟨h, he⟩ | ⟨h, he⟩
  · refine ⟨_, he, fun k => ?_, fun _ => advanceI_eq x _, fun h' => by omega⟩
    rw [advanceI_v, loadList_regsUpTo]
    congr 1
    simp only [Fin.le_def, eq_iff_iff]
    omega
  · refine ⟨_, he, fun k => ?_, fun h' => by omega,
      fun _ hf => by rw [recordFault_of_none]; exact hf⟩
    rw [recordFault_v, loadList_take_regsUpTo]
    congr 1
    simp only [Fin.le_def, eq_iff_iff]
    omega

/-- Settles O44: FX65 is one row of the table, and each register is loaded from its own address, if that is
in memory. -/
theorem registerLoadReadsV0ToVx : Obligations.RegisterLoadReadsV0ToVx :=
  ⟨encodes_of_mem (mnemonic := "LD.regs") (by simp [opcodeTable]), exec_ldRegs_loads⟩

/-! ### The fetch after a store -/

/-- Where an instruction has changed neither PC nor FAULT nor the agenda, the next cycle runs the word made of
the two bytes that memory now holds at PC. -/
theorem next_fetch_reads {s t : State} (hp : s.pc.toNat ≤ 4094) (hpc : t.pc = s.pc)
    (hf : t.fault = s.fault) (ha : t.agenda = s.agenda) {stored : Nat → Byte}
    (h : ∀ a, t.mem.read a = stored a) :
    t.pc = s.pc ∧
    let w := beWord (stored s.pc.toNat) (stored (s.pc.toNat + 1))
    fetchWord t = .ok w ∧
    ∀ rest, s.fault = none → CpuTurn s rest → step t = decodeExecute w
      { t with agenda := rest, drawFlag := false, opcode := w, pc := s.pc + 2#16 } := by
  rw [← hpc] at hp ⊢
  refine ⟨rfl, ?_, fun rest hs hturn => ?_⟩
  · rw [fetchWord, memReadWord_eq, if_pos hp, h, h]
  · have hturn' : CpuTurn t rest := by rwa [CpuTurn, ha]
    rw [step_of_fetches hturn' (fetches_beWord (hf.trans hs) hp), h, h]
    rfl

/-- Settles O17: at each address memory holds the byte stored or the old one, and the fetch reads memory. -/
theorem nextFetchSeesAStore : Obligations.NextFetchSeesAStore := by
  constructor
  · intro x s hi hp stored
    obtain ⟨t, ht, hmem, hle, -⟩ := exec_stRegs_stores x s
    have hread : ∀ a, t.mem.read a = stored a := by
      intro a
      by_cases h : s.i.toNat ≤ a ∧ a ≤ s.i.toNat + x.val
      · obtain ⟨k, rfl⟩ := Nat.exists_eq_add_of_le h.1
        have hk : k < x.val + 1 := by omega
        rw [hmem, read_storeList_of_mem (by rwa [length_map_regsUpTo]) (by omega),
          getElem_map_regsUpTo (by omega)]
        simp [stored, Nat.lt_succ_iff.mp hk]
      · rw [hmem, read_storeList_of_not_mem (by rw [length_map_regsUpTo]; omega)]
        simp only [stored, dif_neg h]
    exact ⟨t, ht, next_fetch_reads hp (by rw [hle hi]) (by rw [hle hi]) (by rw [hle hi]) hread⟩
  · intro x s hi hp n stored
    obtain ⟨t, ht, hmem, hle, -⟩ := exec_ldB_stores x s
    have hread : ∀ a, t.mem.read a = stored a := by
      intro a
      by_cases h : s.i.toNat ≤ a ∧ a ≤ s.i.toNat + 2
      · obtain ⟨k, rfl⟩ := Nat.exists_eq_add_of_le h.1
        have hk : k = 0 ∨ k = 1 ∨ k = 2 := by omega
        rw [hmem, read_storeList_of_mem (by simp [decimalDigits]; omega) (by omega)]
        rcases hk with rfl | rfl | rfl <;> simp [stored, decimalDigits, n]
      · rw [hmem, read_storeList_of_not_mem (by simp [decimalDigits]; omega)]
        have : a ≠ s.i.toNat ∧ a ≠ s.i.toNat + 1 ∧ a ≠ s.i.toNat + 2 := by omega
        simp [stored, this]
    exact ⟨t, ht, next_fetch_reads hp (by rw [hle hi]) (by rw [hle hi]) (by rw [hle hi]) hread⟩

end Sys2Proof.Proofs
end

section
/-!
PROOFS. The display instructions (44_display.md R140, R141).
-/

namespace Sys2Proof.Proofs

open Sys2Proof.Machine

theorem exec_cls (s : State) :
    exec .cls s = .next { s with fb := blankScreen, drawFlag := true } := rfl

/-- Settles O45: 00E0 is one row of the table, and the screen it leaves is the blank one. -/
theorem clearScreenBlanksEveryPixel : Obligations.ClearScreenBlanksEveryPixel :=
  ⟨encodes_of_mem (mnemonic := "CLS") (by simp [opcodeTable]),
    fun s => ⟨_, exec_cls s, pixel_blankScreen, rfl⟩⟩

/-- DXYN with its whole sprite in memory; a collision is a lit pixel under a set bit. -/
theorem exec_drw_of_le {x y : Reg} {n : Fin 16} {s : State}
    (h : n.val = 0 ∨ s.i.toNat + n.val ≤ 4096) :
    ∃ (t : State) (coll : Bool), exec (.drw x y n) s = .next t ∧
      (∀ px py, pixel t.fb px py =
        (pixel s.fb px py ^^ spriteAt s.mem s.i.toNat s.v[x] s.v[y] n.val px py)) ∧
      (coll = true ↔ ∃ px py, pixel s.fb px py = true ∧
        spriteAt s.mem s.i.toNat s.v[x] s.v[y] n.val px py = true) ∧
      t = { s with fb := t.fb, v := s.v.set 15 (if coll then 1#8 else 0#8), drawFlag := true } := by
  rcases execDrw_cases x y n s with ⟨-, coll, fb, he, hp, hc⟩ | ⟨h0, hgt, -⟩
  · exact ⟨_, coll, he, hp, hc, rfl⟩
  · omega

/-- Settles O46: DXYN is one row of the table, and a lit pixel under a set bit is one that goes dark. -/
theorem drawXorsTheSpriteOntoTheScreen : Obligations.DrawXorsTheSpriteOntoTheScreen := by
  refine ⟨encodes_of_mem (mnemonic := "DRW") (by simp [opcodeTable]), fun x y n s h => ?_⟩
  obtain ⟨t, coll, ht, hp, hc, hrest⟩ := exec_drw_of_le h
  refine ⟨t, coll, ht, hp, hc.trans ?_, hrest⟩
  refine exists_congr fun px => exists_congr fun py => and_congr_right fun hlit => ?_
  simp [hp, hlit]

/-- Settles O47: the rows whose byte lies below 4096 are those before the bad address. -/
theorem drawPastMemoryStopsAtTheBadRow : Obligations.DrawPastMemoryStopsAtTheBadRow := by
  intro x y n s hn hgt hf
  rcases execDrw_cases x y n s with ⟨hle, -⟩ | ⟨-, -, fb, he, hp⟩
  · omega
  · exact ⟨_, he, hp, by rw [recordFault_of_none]; exact hf⟩

/-- Settles O48: the second draw XORs the same bits in again, and a bit meets a pixel that is lit then
exactly when the pixel was dark before. -/
theorem drawingTwiceRestoresTheScreen : Obligations.DrawingTwiceRestoresTheScreen := by
  intro x y n s t u h ht hfb hmem hi hx hy
  obtain ⟨t', -, ht', hp, -, -⟩ := exec_drw_of_le (x := x) (y := y) h
  obtain rfl : t = t' := Host.Outcome.next.inj (ht.symm.trans ht')
  obtain ⟨w, coll, hw, hq, hc, hrest⟩ := exec_drw_of_le (x := x) (y := y) (s := u) (by rwa [hi])
  rw [hmem, hi, hx, hy, hfb] at hq hc
  refine ⟨w, hw, frame_ext fun px py => ?_, ?_⟩
  · rw [hq, hp]
    simp
  · have hflag : w.v[15] = 1#8 ↔ coll = true := by
      rw [hrest]
      cases coll <;> simp
    rw [hflag, hc]
    refine exists_congr fun px => exists_congr fun py => ?_
    rw [hp]
    cases pixel s.fb px py <;> simp

end Sys2Proof.Proofs
end

section
/-!
PROOFS. Events, host operations and reset (60_exceptions.md sections 3 to 5, 70_reset_and_hazards.md).
-/

namespace Sys2Proof.Proofs

open Sys2Proof.Machine

/-! ### Events -/

theorem countDown_eq_ofNat (b : Byte) : countDown b = BitVec.ofNat 8 (b.toNat - 1) := by
  rw [← countDown_toNat, BitVec.ofNat_toNat, BitVec.setWidth_eq]

/-- Settles O53: the tick's step is the timer's operation, which sets the timer alone. -/
theorem tickCountsItsTimerDown : Obligations.TickCountsItsTimerDown := by
  intro s rest
  constructor
  · intro h
    rw [step_of_agenda_event h, deliver_tick, ← countDown_eq_ofNat]
    rfl
  · intro h
    rw [step_of_agenda_event h, deliver_tick, ← countDown_eq_ofNat]
    rfl

/-- Settles O55: the event's step is the keypad's operation, on the state with the turn used up. -/
theorem keyEventsAreStepsOfTheirOwn : Obligations.KeyEventsAreStepsOfTheirOwn := by
  intro s k rest
  refine ⟨fun hk h => ?_, fun hk h => ?_, fun hk hf h => ?_⟩
  · rw [step_of_agenda_event h, deliver_keyPress hk]
  · rw [step_of_agenda_event h, deliver_keyRelease hk]
  · have hfault : ∀ e, hostFault e.call = some (.invalidKey k) → s.agenda = .event e :: rest →
        step s = .next { s with agenda := rest, fault := some (.invalidKey k) } := by
      intro e he h
      rw [step_of_agenda_event h, deliver_of_hostFault he, recordFault_of_none]
      exact hf
    rcases h with h | h
    · exact hfault (.keyPress k) (if_pos hk) h
    · exact hfault (.keyRelease k) (if_pos hk) h

/-! ### Register accessors -/

theorem regGet_of_lt {n : Nat} (h : n < 16) (s : State) : regGet n s = .ok (getV ⟨n, h⟩ s) := dif_pos h

theorem regGet_of_ge {n : Nat} (h : n ≥ 16) (s : State) :
    regGet n s = .error (.registerIndexInvalid n) := dif_neg (Nat.not_lt_of_ge h)

theorem regSet_of_lt {n : Nat} (h : n < 16) (b : Byte) (s : State) :
    regSet n b s = .ok (setV ⟨n, h⟩ b s) := dif_pos h

theorem regSet_of_ge {n : Nat} (h : n ≥ 16) (b : Byte) (s : State) :
    regSet n b s = .error (.registerIndexInvalid n) := dif_neg (Nat.not_lt_of_ge h)

theorem regGet_setV_of_ne {x : Reg} {m : Nat} (h : m ≠ x.val) (b : Byte) (s : State) :
    regGet m (setV x b s) = regGet m s := by
  by_cases hm : m < 16
  · rw [regGet_of_lt hm, regGet_of_lt hm, getV_setV_of_ne fun e => h (by rw [e])]
  · rw [regGet_of_ge (by omega), regGet_of_ge (by omega)]

/-- Settles O57: both accessors check the index and then touch that register alone. -/
theorem registerAccessors : Obligations.RegisterAccessors := by
  intro n b s
  constructor
  · intro h
    exact ⟨_, regSet_of_lt h b s, rfl, by rw [regGet_of_lt h, getV_setV_self],
      fun m hm => regGet_setV_of_ne hm b s⟩
  · intro h
    exact ⟨regGet_of_ge h s, regSet_of_ge h b s⟩

/-! ### Host calls -/

theorem hostCall_of_hostFault {c : HostCall} {f : Fault} (h : hostFault c = some f) (s : State) :
    hostCall c s = (.failed f, recordFault f s) := by
  rcases hostOp_cases c s with ⟨h0, -⟩ | ⟨g, hg, he⟩
  · simp [h0] at h
  · cases hg.symm.trans h
    exact hostCall_of_error he

theorem hostCall_of_no_fault {c : HostCall} (h : hostFault c = none) (s : State) :
    ∃ r t, hostCall c s = (r, t) ∧ t.fault = s.fault ∧ ∀ f, r ≠ .failed f := by
  rcases hostOp_cases c s with ⟨-, r, t, he, hf, hr⟩ | ⟨g, hg, -⟩
  · exact ⟨r, t, hostCall_of_ok he, hf, hr⟩
  · simp [h] at hg

theorem step_of_query {q : Query} {s : State} {rest : List Turn}
    (h : s.agenda = .event (.query q) :: rest) (hf : s.fault = none) :
    step s = .next { s with agenda := rest, fault := hostFault q.call } := by
  rw [step_of_agenda_event h]
  cases hq : hostFault q.call with
  | none => rw [deliver_query hq, ← hf]
  | some f =>
    rw [deliver_of_hostFault (e := .query q) hq, recordFault_of_none]
    exact hf

/-- Settles O59: a call completes or raises as the table says, and the record of what it raised stops the
CPU. -/
theorem hostCallsRecordTheirFaults : Obligations.HostCallsRecordTheirFaults := by
  refine ⟨fun c s hf => ⟨fun hc => ?_, fun f hc => ⟨?_, fun rest hturn => ?_⟩⟩,
    fun q s rest h hf => step_of_query h hf, fun a b s ha => ?_⟩
  · obtain ⟨r, t, he, ht, hr⟩ := hostCall_of_no_fault hc s
    exact ⟨r, t, he, ht.trans hf, hr⟩
  · rw [hostCall_of_hostFault hc, recordFault_of_none hf]
  · exact step_of_fault rfl hturn
  · have ha' : a < Config.memSize := Nat.lt_succ_of_le ha
    have hget : hostOp (.memGet a) s = .ok (.byte (s.mem.read a), s) := by
      rw [hostOp, memRead_of_lt ha']
      rfl
    have hset : hostOp (.memSet a b) s = .ok (.done, { s with mem := s.mem.write a b }) := by
      rw [hostOp, memWrite_of_lt ha']
      rfl
    exact ⟨hostCall_of_ok hget, _, memWrite_of_lt ha' b s, hostCall_of_ok hset⟩

/-! ### Boot -/

/-- Memory after both loaders: the font from 0x000, the image from 0x200, and what reset left elsewhere. -/
def bootMem (f rom : List Byte) : Memory := (Memory.writeList [] 0 f).writeList 0x200 rom

theorem length_of_fontOk {f : List Byte} (h : fontOk f = true) : f.length = 80 := by
  simp only [fontOk, Bool.and_eq_true, beq_iff_eq] at h
  exact h.1

theorem boot_of_le {f rom : List Byte} (hf : fontOk f = true) (h : rom.length ≤ 3584) :
    boot f rom = .next { State.reset with mem := bootMem f rom } := by
  have hlen := length_of_fontOk hf
  rw [boot, if_neg (Nat.not_lt_of_ge h), if_pos hf, storeBytes_eq,
    if_pos (.inr (by simp only [Config.fontBase]; omega))]
  simp only
  rw [storeBytes_eq, if_pos (.inr (by simp only [Config.programBase]; omega))]
  rfl

theorem boot_of_gt {f rom : List Byte} (h : rom.length > 3584) :
    boot f rom = .refused (.romTooLong rom.length) := if_pos h

/-- A cell past the font that nothing has written holds the fill. -/
theorem read_nil_of_ge {a : Nat} (h : 80 ≤ a) : Memory.read [] a = 0#8 := by
  have hlen : font.length ≤ a := h
  simp [Memory.read, Memory.lookup, resetByte, memFill, List.getElem?_eq_none hlen]

theorem read_bootMem_image {f rom : List Byte} {j : Nat} (h : j < rom.length) :
    (bootMem f rom).read (0x200 + j) = rom.getD j 0#8 := by
  rw [bootMem, Memory.read_writeList, dif_pos (by omega)]
  simp [h]

section
variable {f rom : List Byte} (hf : fontOk f = true)
include hf

theorem read_bootMem_font {j : Nat} (h : j < 80) : (bootMem f rom).read j = f.getD j 0#8 := by
  have hlen := length_of_fontOk hf
  rw [bootMem, Memory.read_writeList, dif_neg (by omega), Memory.read_writeList, dif_pos (by omega)]
  simp [hlen, h]

theorem read_bootMem_rest {a : Nat} (h : 80 ≤ a) (ha : ¬ (0x200 ≤ a ∧ a < 0x200 + rom.length)) :
    (bootMem f rom).read a = 0#8 := by
  have hlen := length_of_fontOk hf
  rw [bootMem, Memory.read_writeList, dif_neg ha, Memory.read_writeList, dif_neg (by omega),
    read_nil_of_ge h]

end

/-- Settles O60: the loaders change memory alone, and the image lies past the font. -/
theorem bootLeavesTheResetState : Obligations.BootLeavesTheResetState := by
  intro f rom hf
  refine ⟨fun h => ⟨_, boot_of_le hf h, rfl, rfl, rfl, rfl, rfl, rfl, rfl, rfl, ?regs, ?keys,
    pixel_blankScreen, fun _ => read_bootMem_font hf, fun _ => read_bootMem_image,
    fun _ h80 _ hrom => read_bootMem_rest hf h80 hrom⟩, boot_of_gt⟩
  case regs => exact fun k => by simp [State.reset]
  case keys => exact fun k => by simp [State.reset]

end Sys2Proof.Proofs
end
